-- ==== Sys2Proof/Word.lean ====
section
/-! DEFINITION. The word types of the core: 64-bit words, bus bytes and binary64 values. -/

namespace Sys2Proof

/-- A 64-bit register, command word or bus value (R72, R100). -/
abbrev Word64 := BitVec 64

/-- A byte on the bus (R75). -/
abbrev Byte := BitVec 8

/-- An IEEE 754 binary64 datum (R10): exactly one term for each of the 2^64 encodings, so that
equality of terms is equality of bit patterns. `F64.toBits` and `F64.ofBits`
(Machine/Float.lean) are the encoding. -/
inductive F64 where
  /-- A NaN: sign bit and the significand field less one (the field of a NaN is not 0). -/
  | nan (neg : Bool) (payload : Fin 4503599627370495)
  /-- An infinity. -/
  | inf (neg : Bool)
  /-- A finite value: sign bit, biased exponent field 0..2046, significand field. -/
  | fin (neg : Bool) (e : Fin 2047) (f : BitVec 52)
deriving DecidableEq, Repr, Inhabited

/-- The zero of the given sign (R303). -/
abbrev F64.zero (neg : Bool) : F64 := .fin neg 0 0

/-- The binary64 value +0.0. -/
abbrev F64.posZero : F64 := .zero false

/-- The binary64 value −0.0. -/
abbrev F64.negZero : F64 := .zero true

/-- The binary64 value 1.0 (encoding 0x3FF0000000000000). -/
abbrev F64.one : F64 := .fin false 1023 0

end Sys2Proof
end

