-- ==== Sys2Proof/Syntax.lean ====
section
/-! DEFINITION. The commands of the core: one constructor per row of the opcode table (R102). -/

namespace Sys2Proof

/-- The seven commands (R102).
The operand is the note id, a natural number as an assembler line writes it (R120);
`Instr.wf` (WellFormed.lean) holds the range 0..255 that R120 lets through (log 15). -/
inductive Instr where
  /-- NOTE_ON n: start or retrigger note n (R250). -/
  | noteOn (note : Nat)
  /-- NOTE_OFF n: release note n (R255). -/
  | noteOff (note : Nat)
  /-- NEXT: compute the next mixed block (R257). -/
  | next
  /-- STOP: discard every voice and every tail (R260). -/
  | stop
  /-- SET_AMP n: carrier amplitude of note n from ARG (R262). -/
  | setAmp (note : Nat)
  /-- SET_FM n: modulation frequency of note n, in Hz, from ARG (R263). -/
  | setFm (note : Nat)
  /-- SET_BETA n: modulation index of note n from ARG (R264). -/
  | setBeta (note : Nat)
deriving DecidableEq, Repr

/-- The note id of a command, 0 for NEXT and STOP (R101, R106). -/
def Instr.note : Instr → Nat
  | .noteOn n => n
  | .noteOff n => n
  | .next => 0
  | .stop => 0
  | .setAmp n => n
  | .setFm n => n
  | .setBeta n => n

end Sys2Proof
end

