-- ==== Sys2Proof/WellFormed.lean ====
section
/-! DEFINITION. Which commands an assembler accepts (R120). -/

namespace Sys2Proof

/-- R101, R120: a note id is an unsigned 8-bit number, 0..255. -/
def noteInRange (n : Nat) : Bool := decide (n ≤ 255)

/-- R120: "n must be 0..255; an assembler refuses other values". -/
def Instr.wf : Instr → Bool
  | .noteOn n => noteInRange n
  | .noteOff n => noteInRange n
  | .next => true
  | .stop => true
  | .setAmp n => noteInRange n
  | .setFm n => noteInRange n
  | .setBeta n => noteInRange n

end Sys2Proof
end

