-- ==== Sys2Proof/Decode.lean ====
section
/-! DEFINITION. The command word: decoder (R105–R107), encoder (R120), byte order (R75). -/

namespace Sys2Proof

/-- Why a word is illegal (R106). -/
inductive DecodeError where
  /-- w[63:16] ≠ 0 or w[7:4] ≠ 0. -/
  | reservedBits
  /-- OP = 0x0 or OP in 0x8..0xF. -/
  | reservedOp (op : BitVec 4)
  /-- NEXT or STOP with NOTE ≠ 0. -/
  | noteNotZero
  /-- Fewer than eight bytes: no whole word (R108). -/
  | truncated
deriving DecidableEq, Repr

/-- OP = w[3:0] (R100). -/
def opField (w : Word64) : BitVec 4 := w.extractLsb' 0 4

/-- NOTE = w[15:8] (R100, R101). -/
def noteField (w : Word64) : BitVec 8 := w.extractLsb' 8 8

/-- The reserved fields w[63:16] and w[7:4] are 0 (R100). -/
def reservedClear (w : Word64) : Bool :=
  w.extractLsb' 16 48 == 0 && w.extractLsb' 4 4 == 0

/-- R107, total on every 64-bit word. -/
def decode (w : Word64) : Except DecodeError Instr :=
  let n := (noteField w).toNat
  if reservedClear w then
    match (opField w).toNat with
    | 1 => .ok (.noteOn n)
    | 2 => .ok (.noteOff n)
    | 3 => if n = 0 then .ok .next else .error .noteNotZero
    | 4 => if n = 0 then .ok .stop else .error .noteNotZero
    | 5 => .ok (.setAmp n)
    | 6 => .ok (.setFm n)
    | 7 => .ok (.setBeta n)
    | _ => .error (.reservedOp (opField w))
  else .error .reservedBits

/-- Byte k of a 64-bit value is its bits [8k+7:8k]; the first byte is the lowest address (R75). -/
def wordBytes (w : Word64) : List Byte :=
  (List.range 8).map fun k => w.extractLsb' (8 * k) 8

/-- The 64-bit value whose bytes, lowest address first, are the given ones (R75). -/
def bytesWord (bs : List Byte) : Word64 :=
  BitVec.ofNat 64 (bs.foldr (fun b acc => b.toNat + 256 * acc) 0)

/-- Decoding from bytes: one whole 64-bit word, never another length (R100, R108). -/
def decodeBytes (bs : List Byte) : Except DecodeError (Instr × List Byte) :=
  if 8 ≤ bs.length then
    match decode (bytesWord (bs.take 8)) with
    | .ok i => .ok (i, bs.drop 8)
    | .error e => .error e
  else .error .truncated

/-- The instruction the decoder reads from the low `nbits` bits of `w`, the bits above them 0. -/
def decodeTableWord (nbits w : Nat) : Option Instr :=
  let v := w % 2 ^ nbits
  if v < 2 ^ 64 then
    match decodeBytes (wordBytes (BitVec.ofNat 64 v)) with
    | .ok (i, _) => some i
    | .error _ => none
  else none

/-- The OP value of a command (R102). -/
def Instr.op : Instr → Nat
  | .noteOn _ => 1
  | .noteOff _ => 2
  | .next => 3
  | .stop => 4
  | .setAmp _ => 5
  | .setFm _ => 6
  | .setBeta _ => 7

/-- R120: the word of a command, OP OR (n << 8). -/
def encode (i : Instr) : Word64 :=
  BitVec.ofNat 64 i.op ||| (BitVec.ofNat 64 i.note <<< 8)

/-- One row of the table of R105. -/
structure CmdRow where
  mnemonic : String
  mask : Word64
  pattern : Word64
deriving DecidableEq, Repr

/-- The table of R105 (the same as spec/opcode_table.json). -/
def cmdRows : List CmdRow :=
  [ ⟨"NOTE_ON", 0xFFFFFFFFFFFF00FF, 0x0000000000000001⟩,
    ⟨"NOTE_OFF", 0xFFFFFFFFFFFF00FF, 0x0000000000000002⟩,
    ⟨"NEXT", 0xFFFFFFFFFFFFFFFF, 0x0000000000000003⟩,
    ⟨"STOP", 0xFFFFFFFFFFFFFFFF, 0x0000000000000004⟩,
    ⟨"SET_AMP", 0xFFFFFFFFFFFF00FF, 0x0000000000000005⟩,
    ⟨"SET_FM", 0xFFFFFFFFFFFF00FF, 0x0000000000000006⟩,
    ⟨"SET_BETA", 0xFFFFFFFFFFFF00FF, 0x0000000000000007⟩ ]

/-- A word matches a row when (w AND mask) = match (R105). -/
def CmdRow.accepts (r : CmdRow) (w : Word64) : Bool := w &&& r.mask == r.pattern

/-- The mnemonic of a command (R102). -/
def Instr.mnemonic : Instr → String
  | .noteOn _ => "NOTE_ON"
  | .noteOff _ => "NOTE_OFF"
  | .next => "NEXT"
  | .stop => "STOP"
  | .setAmp _ => "SET_AMP"
  | .setFm _ => "SET_FM"
  | .setBeta _ => "SET_BETA"

/-- The assembler line of a command (R120): mnemonic, then the note id in decimal. -/
def Instr.line (i : Instr) : String :=
  match i with
  | .next => i.mnemonic
  | .stop => i.mnemonic
  | .noteOn n => i.mnemonic ++ " " ++ toString n
  | .noteOff n => i.mnemonic ++ " " ++ toString n
  | .setAmp n => i.mnemonic ++ " " ++ toString n
  | .setFm n => i.mnemonic ++ " " ++ toString n
  | .setBeta n => i.mnemonic ++ " " ++ toString n

/-- What an assembler makes of a line: its word, or nothing where R120 refuses the note id. -/
def assemble (i : Instr) : Option Word64 := if i.wf then some (encode i) else none

end Sys2Proof
end

