-- ==== Sys2Proof/Config.lean ====
section
/-! DEFINITION. The parameters of a core (R8) and the values the spec leaves free. -/

namespace Sys2Proof

/-- The parameters of R8 and R78: fixed at reset, changed by no step.
`sinTable` lists known values of the parameter SIN, which is `Config.sin` wherever it lists
nothing (log 3); a table makes a concrete core's sine plain data. -/
structure Params where
  /-- SAMPLE_RATE, samples per second. -/
  sr : Nat
  /-- BLOCK_SIZE, samples per block. -/
  bs : Nat
  /-- N_NOTES, the number of note ids and of voice slots. -/
  nNotes : Nat
  /-- FREQ_TABLE, one carrier frequency in Hz per note id. -/
  freqTable : List F64
  /-- ENV_MAX_FRAMES; `none` is ∞. -/
  envMax : Option Nat
  /-- MIX_ORDER, the order in which NEXT visits the slots. -/
  mixOrder : List Nat
  /-- BASE, the platform address of the register window (R78). -/
  base : Nat
  /-- Known values of SIN as (argument, value) pairs. -/
  sinTable : List (F64 × F64)
deriving DecidableEq, Repr, Inhabited

/-- ENV_MAX_FRAMES ≥ BS, or ∞ (R8). -/
def Params.envMaxLegal (P : Params) : Bool :=
  match P.envMax with
  | none => true
  | some m => decide (P.bs ≤ m)

/-- The legal values of R8. -/
abbrev Params.Legal (P : Params) : Prop :=
  (1 ≤ P.sr ∧ P.sr < 4294967296) ∧ (1 ≤ P.bs ∧ P.bs ≤ 8160) ∧
  (1 ≤ P.nNotes ∧ P.nNotes ≤ 256) ∧ P.freqTable.length = P.nNotes ∧
  P.envMaxLegal = true ∧ P.mixOrder.Perm (List.range P.nNotes)

/-- The smallest legal parameters. They stand only where an uninterpreted value is not legal. -/
def Params.smallest : Params :=
  { sr := 1, bs := 1, nNotes := 1, freqTable := [F64.posZero], envMax := none, mixOrder := [0],
    base := 0, sinTable := [] }

/-- The binary64 operations whose NaN results are left open (R302). -/
inductive FOp where
  | add | sub | mul | div
deriving DecidableEq, Repr

/-- DESIGN CHOICE (log 1): the parameters of the core at reset are uninterpreted. -/
opaque Config.rawParams : Params

/-- The parameters of the core at reset: any legal value, and nothing in Lean says which (log 1). -/
def Config.params : Params :=
  if Config.rawParams.Legal then Config.rawParams else Params.smallest

/-- The parameter SIN, any total function (R8; 92_eei_decisions.md D3): uninterpreted (log 3). -/
opaque Config.sin : F64 → F64

/-- Sign and payload of a NaN result, unspecified (R302): an uninterpreted function of the
operation and its operands (log 4). -/
opaque Config.nan : FOp → F64 → F64 → Bool × Fin 4503599627370495

/-- The value a host read returns where the spec says "any value" (R72, R74): uninterpreted, a
fresh one for each value of State.freeCtr (log 9). -/
opaque Config.freeRead : Nat → Word64

/-- PARAM1[63:32] when ENV_MAX_FRAMES does not fit 32 bits, which R74 does not state:
uninterpreted (log 10). -/
opaque Config.param1Wide : Nat → BitVec 32

end Sys2Proof
end

