-- ==== Sys2Proof/Machine/Float.lean ====
section
/-! DEFINITION. IEEE 754 binary64: the encoding (R75) and the primitives of R14, R300–R304. -/

namespace Sys2Proof

/-- The encoding of a binary64 value, bit 63 the sign (R75). -/
def F64.toBits : F64 → Word64
  | .nan neg p => BitVec.ofNat 64 (2047 * 2 ^ 52 + (2 ^ 63 * neg.toNat + (p.val + 1)))
  | .inf neg => BitVec.ofNat 64 (2047 * 2 ^ 52 + 2 ^ 63 * neg.toNat)
  | .fin neg e f => BitVec.ofNat 64 (2 ^ 52 * e.val + (2 ^ 63 * neg.toNat + f.toNat))

/-- The binary64 value of an encoding (R75). -/
def F64.ofBits (b : Word64) : F64 :=
  let neg := b.msb
  let e := b.toNat / 2 ^ 52 % 2048
  let f := b.toNat % 2 ^ 52
  if he : e < 2047 then .fin neg ⟨e, he⟩ (BitVec.ofNat 52 f)
  else if hf : f - 1 < 4503599627370495 ∧ f ≠ 0 then .nan neg ⟨f - 1, hf.1⟩
  else .inf neg

/-- True of a NaN. -/
def F64.isNaN : F64 → Bool
  | .nan _ _ => true
  | .inf _ => false
  | .fin _ _ _ => false

/-- R14: true when x is neither an infinity nor a NaN. -/
def F64.isFinite : F64 → Bool
  | .nan _ _ => false
  | .inf _ => false
  | .fin _ _ _ => true

/-- The sign bit. -/
def F64.sign : F64 → Bool
  | .nan s _ => s
  | .inf s => s
  | .fin s _ _ => s

/-- The value with the other sign bit. -/
def F64.neg : F64 → F64
  | .nan s p => .nan (!s) p
  | .inf s => .inf (!s)
  | .fin s e f => .fin (!s) e f

/-- How many of the smallest positive binary64 value (2^−1074) make 1. -/
def unitsPerOne : Nat := 2 ^ 1074

/-- The magnitude of a finite value, a whole number of units of 2^−1074: exact. -/
def magUnits (e : Fin 2047) (f : BitVec 52) : Nat :=
  2 ^ (e.val - 1) * (if e.val = 0 then f.toNat else 2 ^ 52 + f.toNat)

/-- The finite value as a signed whole number of units of 2^−1074: exact. -/
def signedUnits (neg : Bool) (e : Fin 2047) (f : BitVec 52) : Int :=
  if neg then -(magUnits e f : Int) else (magUnits e f : Int)

/-- n / d rounded to the nearest integer, ties to the even one (d > 0). -/
def divRoundEven (n d : Nat) : Nat :=
  let q := n / d
  let r := n % d
  if 2 * r < d then q else if d < 2 * r then q + 1 else q + q % 2

/-- The binary64 value nearest to (n / d) units of 2^−1074, ties to even, an infinity on overflow,
with subnormals kept (R14, R300). `k` is the exponent of the last significand place; `m` is the
magnitude encoding, in which a carry out of the significand steps the exponent field. -/
def roundUnits (neg : Bool) (n d : Nat) : F64 :=
  let k := Nat.log2 (n / d) - 52
  let m := 2 ^ 52 * k + divRoundEven n (d * 2 ^ k)
  if h : m / 2 ^ 52 < 2047 then .fin neg ⟨m / 2 ^ 52, h⟩ (BitVec.ofNat 52 m) else .inf neg

/-- Some NaN: its sign and payload are left open (R302; log 4). -/
def someNaN (op : FOp) (a b : F64) : F64 :=
  .nan (Config.nan op a b).1 (Config.nan op a b).2

/-- The sum of two finite values given in exact units (R303: an exact zero sum is +0 unless both
operands are −0). -/
def sumUnits (x y : Int) (bothNeg : Bool) : F64 :=
  if x + y = 0 then .zero bothNeg else roundUnits (decide (x + y < 0)) (x + y).natAbs 1

/-- a + b for the operation named `op` on the operands `opA`, `opB` (which a NaN may depend on). -/
def addWith (op : FOp) (opA opB : F64) : F64 → F64 → F64
  | .nan _ _, _ => someNaN op opA opB
  | .inf _, .nan _ _ => someNaN op opA opB
  | .inf sa, .inf sb => if sa = sb then .inf sa else someNaN op opA opB
  | .inf sa, .fin _ _ _ => .inf sa
  | .fin _ _ _, .nan _ _ => someNaN op opA opB
  | .fin _ _ _, .inf sb => .inf sb
  | .fin sa ea fa, .fin sb eb fb =>
    sumUnits (signedUnits sa ea fa) (signedUnits sb eb fb) (sa && sb)

/-- R14: addition. -/
def add64 (a b : F64) : F64 := addWith .add a b a b

/-- R14: subtraction, the sum with the second operand's sign changed. -/
def sub64 (a b : F64) : F64 := addWith .sub a b a b.neg

/-- R14, R301, R303: multiplication; the sign is the exclusive or of the signs. -/
def mul64 (a b : F64) : F64 :=
  match a, b with
  | .nan _ _, _ => someNaN .mul a b
  | .inf _, .nan _ _ => someNaN .mul a b
  | .inf sa, .inf sb => .inf (sa != sb)
  | .inf sa, .fin sb eb fb => if magUnits eb fb = 0 then someNaN .mul a b else .inf (sa != sb)
  | .fin _ _ _, .nan _ _ => someNaN .mul a b
  | .fin sa ea fa, .inf sb => if magUnits ea fa = 0 then someNaN .mul a b else .inf (sa != sb)
  | .fin sa ea fa, .fin sb eb fb =>
    roundUnits (sa != sb) (magUnits ea fa * magUnits eb fb) unitsPerOne

/-- R14: division. PRESUMED (log 19): a zero divisor, which no rule of the core produces (R301),
gives IEEE 754's default result. -/
def div64 (a b : F64) : F64 :=
  match a, b with
  | .nan _ _, _ => someNaN .div a b
  | .inf _, .nan _ _ => someNaN .div a b
  | .inf _, .inf _ => someNaN .div a b
  | .inf sa, .fin sb _ _ => .inf (sa != sb)
  | .fin _ _ _, .nan _ _ => someNaN .div a b
  | .fin sa _ _, .inf sb => .zero (sa != sb)
  | .fin sa ea fa, .fin sb eb fb =>
    if magUnits eb fb = 0 then
      (if magUnits ea fa = 0 then someNaN .div a b else .inf (sa != sb))
    else roundUnits (sa != sb) (unitsPerOne * magUnits ea fa) (magUnits eb fb)

/-- R14, R304: an integer converted to binary64 (every integer the core converts is ≥ 0). -/
def i2f (n : Nat) : F64 := roundUnits false (unitsPerOne * n) 1

/-- R14: IEEE equality: a NaN equals nothing, the two zeros are equal. -/
def eq64 : F64 → F64 → Bool
  | .nan _ _, _ => false
  | .inf _, .nan _ _ => false
  | .inf sa, .inf sb => sa == sb
  | .inf _, .fin _ _ _ => false
  | .fin _ _ _, .nan _ _ => false
  | .fin _ _ _, .inf _ => false
  | .fin sa ea fa, .fin sb eb fb => signedUnits sa ea fa == signedUnits sb eb fb

/-- R14: for finite x the integer nearest to x, ties to the even integer. It is applied to finite
values only (R304); elsewhere it is 0. -/
def roundTiesEven : F64 → Int
  | .nan _ _ => 0
  | .inf _ => 0
  | .fin neg e f =>
    let r : Int := divRoundEven (magUnits e f) unitsPerOne
    if neg then -r else r

/-- The parameter SIN (R8): the listed value, else the uninterpreted one (log 3). -/
def Params.SIN (P : Params) (x : F64) : F64 :=
  match P.sinTable.lookup x with
  | some y => y
  | none => Config.sin x

end Sys2Proof
end

