-- ==== Sys2Proof/Machine/State.lean ====
section
/-! DEFINITION. The state of the core (10_state.md), the inputs still to come, and the reset state. -/

namespace Sys2Proof.Machine

/-- The fault codes of R281; the reserved codes 0x09–0xFF are never recorded and have no name. -/
inductive FaultCode where
  /-- 0x00: no fault since reset. -/
  | none
  /-- 0x01: the command word matches no row of R105. -/
  | illegalCmd
  /-- 0x02: NOTE_ON with n ≥ N_NOTES. -/
  | noteRange
  /-- 0x03: first breakpoint not at frame 0; cannot occur in this core (R162). -/
  | configError
  /-- 0x04: a time times SR is an infinity or a NaN. -/
  | configValue
  /-- 0x05: a segment runs backwards. -/
  | configOrder
  /-- 0x06: a stored envelope is longer than ENV_MAX_FRAMES. -/
  | envTooLong
  /-- 0x07: a host write to a writable register while BUSY = 1. -/
  | busyViolation
  /-- 0x08: a host access of another width, misaligned, unmapped, or a write to a read-only register. -/
  | badAccess
deriving DecidableEq, Repr

/-- The states of an ADSR (R41, R196). -/
inductive AdsrState where
  | idle | active | releasing
deriving DecidableEq, Repr

/-- The states of a voice (R37). -/
inductive VoiceState where
  | on | off
deriving DecidableEq, Repr

/-- A breakpoint of a piecewise-linear curve: an integer frame and a value (R160). -/
structure Breakpoint where
  frame : Int
  value : F64
deriving DecidableEq, Repr

/-- An envelope record (R42). `points` are the breakpoints it was built from; its buffer
buf[0..len−1] is a function of them, computed on demand by `Envelope.sample` as R304 allows
(log 5). -/
structure Envelope where
  points : List Breakpoint
  /-- L, the buffer length. -/
  len : Nat
  last : F64
  cursor : Nat
deriving DecidableEq, Repr

/-- An ADSR record (R41): `ad` and `rel` are its attack-decay and release envelopes. -/
structure Adsr where
  state : AdsrState
  last : F64
  ad : Envelope
  rel : Envelope
deriving DecidableEq, Repr

/-- An oscillator record (R39); `t` is its 64-bit sample counter (R40). -/
structure Osc where
  freq : F64
  amp : F64
  phase : F64
  t : Word64
deriving DecidableEq, Repr

/-- An FM oscillator record (R38); `mod` is its modulator, whose `amp` is β. -/
structure FmOsc where
  fc : F64
  amp : F64
  t : Word64
  mod : Osc
deriving DecidableEq, Repr

/-- A voice record (R37). -/
structure Voice where
  state : VoiceState
  fm : FmOsc
  adsr : Adsr
deriving DecidableEq, Repr

/-- A voice slot (R36): MAPPED, TAIL_VALID, TAIL and VOICE. -/
structure Slot where
  mapped : Bool
  tailValid : Bool
  tail : List F64
  voice : Voice
deriving DecidableEq, Repr

/-- DESIGN CHOICE (log 11): the unobservable contents of an envelope of an unmapped slot (R46). -/
def Envelope.blank : Envelope := { points := [], len := 0, last := .posZero, cursor := 0 }

/-- DESIGN CHOICE (log 11): the unobservable VOICE of an unmapped slot at reset (R46, R50). -/
def Voice.blank : Voice :=
  { state := .off
    fm := { fc := .posZero, amp := .posZero, t := 0
            mod := { freq := .posZero, amp := .posZero, phase := .posZero, t := 0 } }
    adsr := { state := .idle, last := .posZero, ad := .blank, rel := .blank } }

/-- A slot at reset: unmapped, no tail (R50). -/
def Slot.blank : Slot := { mapped := false, tailValid := false, tail := [], voice := .blank }

/-- What happens next at the core's interface: an access of the HOST agent, a turn of the CORE
agent, or the platform's reset (R20, R240, R320; log 6). Addresses are platform addresses. -/
inductive Event where
  /-- The CORE agent's turn: its completion step if BUSY = 1, otherwise no step (R240, R315). -/
  | core
  /-- A host read of `width` bytes at address `addr` (R72, R74). -/
  | read (addr width : Nat)
  /-- A host write of `width` bytes at address `addr` (R72, R73). -/
  | write (addr width : Nat) (v : Word64)
  /-- WAIT: read STATUS until BUSY = 0 (R121). -/
  | wait
  /-- The platform's reset (R320). -/
  | reset
deriving DecidableEq, Repr

/-- Why the model stops. The core itself never stops: its faults are recorded in STATUS and are
next states (R285; log 16). -/
inductive Fault where
  /-- Raised by the CORE agent's completion when BUSY = 1 and no command is pending, a state no run
  reaches (`Inv`, Safety.lean). Safe: the model stops (log 14). -/
  | busyWithoutPending
deriving DecidableEq, Repr

/-- Why the model refuses an instruction. -/
inductive Refusal where
  /-- Raised by exec's arm of an instruction that has no meaning yet. Safe: the model stops.
  No arm raises it now. -/
  | notModelled (mnemonic : String)
deriving DecidableEq, Repr

/-- The state of the core (R30), its parameters (R8, R48), and the model's own fields. -/
structure State where
  /-- The parameters: fixed at reset, changed by no step (R48, R320; log 1). -/
  params : Params
  /-- CMD_LAST (R34). -/
  cmdLast : Word64
  /-- CFG_AMP (R32). -/
  cfgAmp : F64
  /-- CFG_FM (R32). -/
  cfgFm : F64
  /-- CFG_BETA (R32). -/
  cfgBeta : F64
  /-- CFG_ATTACK, seconds (R32). -/
  cfgAttack : F64
  /-- CFG_DECAY, seconds (R32). -/
  cfgDecay : F64
  /-- CFG_SUSTAIN, level (R32). -/
  cfgSustain : F64
  /-- CFG_RELEASE, seconds (R32). -/
  cfgRelease : F64
  /-- CFG_FLAGS; bits 63:1 hold 0 (R33). -/
  cfgFlags : Word64
  /-- ARG (R32). -/
  arg : F64
  /-- STATUS.BUSY (R35). -/
  busy : Bool
  /-- STATUS.HALTED (R35). -/
  halted : Bool
  /-- PENDING, the command word latched by the last CMD write (R35). -/
  pending : Option Word64
  /-- STATUS.FAULT_CODE (R35, R281). -/
  faultCode : FaultCode
  /-- STATUS.FAULT_NOTE (R35). -/
  faultNote : BitVec 8
  /-- STATUS.FAULT_OP (R35). -/
  faultOp : BitVec 4
  /-- STATUS.FAULT_OFF (R35). -/
  faultOff : BitVec 16
  /-- OUT[0..BS−1] (R47). -/
  out : List F64
  /-- slot[0..N_NOTES−1] (R36). -/
  slots : List Slot
  /-- The model's own: the events still to come, oldest first (log 6). -/
  agenda : List Event
  /-- The model's own: the value the last host read returned (log 8). -/
  rdata : Option Word64
  /-- The model's own: how many "any value" answers have been given (log 9). -/
  freeCtr : Nat
deriving DecidableEq, Repr

/-- The state of a core with parameters `P` right after reset (R50, R320). -/
def State.resetWith (P : Params) : State :=
  { params := P
    cmdLast := 0
    cfgAmp := .posZero
    cfgFm := .posZero
    cfgBeta := .posZero
    cfgAttack := .posZero
    cfgDecay := .posZero
    cfgSustain := .posZero
    cfgRelease := .posZero
    cfgFlags := 0
    arg := .posZero
    busy := false
    halted := false
    pending := none
    faultCode := .none
    faultNote := 0
    faultOp := 0
    faultOff := 0
    out := List.replicate P.bs .posZero
    slots := List.replicate P.nNotes .blank
    agenda := []
    rdata := none
    freeCtr := 0 }

/-- The machine right after reset (R50, R320), its parameters uninterpreted (log 1). -/
def State.reset : State := State.resetWith Config.params

end Sys2Proof.Machine
end

