-- ==== Sys2Proof/Machine/Ops.lean ====
section
/-! DEFINITION. The shared operations: the fault action, the slot file, the command handshake,
blocks of samples, reset. -/

namespace Sys2Proof.Machine

/-- The fault action `raise Fault(code, note, op, off)` (R285): only the first fault is recorded,
HALTED becomes 1, and nothing else changes. The caller abandons what raised it. There is no
return from a fault: only reset leaves HALTED (R307). -/
def State.raise (s : State) (code : FaultCode) (note : BitVec 8) (op : BitVec 4)
    (off : BitVec 16) : State :=
  { s with
    halted := true
    faultCode := if s.faultCode = .none then code else s.faultCode
    faultNote := if s.faultCode = .none then note else s.faultNote
    faultOp := if s.faultCode = .none then op else s.faultOp
    faultOff := if s.faultCode = .none then off else s.faultOff }

/-- The record of a command fault: FAULT_NOTE = NOTE, FAULT_OP = OP, FAULT_OFF = 0 (R283). -/
def State.raiseCommand (s : State) (code : FaultCode) (note : Nat) (op : Nat) : State :=
  s.raise code (BitVec.ofNat 8 note) (BitVec.ofNat 4 op) 0

/-- The record of a host-access fault: FAULT_NOTE = FAULT_OP = 0, FAULT_OFF = the offset (R283). -/
def State.raiseAccess (s : State) (code : FaultCode) (off : BitVec 16) : State :=
  s.raise code 0 0 off

/-- slot[n] (R13, R36). -/
def State.slot (s : State) (n : Nat) : Slot := s.slots.getD n .blank

/-- slot[n] <- v (R13, R36). -/
def State.setSlot (s : State) (n : Nat) (v : Slot) : State := { s with slots := s.slots.set n v }

/-- A slot holds a live voice when it is mapped and its voice is on (R249). -/
def Slot.live (sl : Slot) : Bool := sl.mapped && decide (sl.voice.state = .on)

/-- What a write to CMD latches (R73): CMD_LAST and PENDING get the word, BUSY becomes 1. -/
def State.latchCommand (s : State) (w : Word64) : State :=
  { s with cmdLast := w, pending := some w, busy := true }

/-- The end of a completion (R240): PENDING <- none, BUSY <- 0. -/
def State.finishCommand (s : State) : State := { s with pending := none, busy := false }

/-- The remaining events become `es` (log 6). -/
def State.setAgenda (s : State) (es : List Event) : State := { s with agenda := es }

/-- The value a host read returns (log 8). -/
def State.answer (s : State) (v : Word64) : State := { s with rdata := some v }

/-- The answer to a read whose value the spec leaves open (R72, R74; log 9). -/
def State.answerAny (s : State) : State :=
  { s with rdata := some (Config.freeRead s.freeCtr), freeCtr := s.freeCtr + 1 }

/-- The platform's reset (R320): every piece of state as R50 says, a pending command discarded.
The parameters stay (R48), and so do the model's agenda and free-value counter (log 20). -/
def State.platformReset (s : State) : State :=
  { State.resetWith s.params with agenda := s.agenda, freeCtr := s.freeCtr }

/-- A block of samples (R15): a full block of BS samples, or one value that stands for all of
them. -/
inductive Block where
  | full (v : List F64)
  | hold (x : F64)
deriving DecidableEq, Repr

/-- `vals(b)` (R171): the BS samples of a block, a hold block broadcast. -/
def Block.vals (P : Params) : Block → List F64
  | .full v => v
  | .hold x => List.replicate P.bs x

/-- `last_sample(b)` (R15, R171). -/
def Block.lastSample (P : Params) : Block → F64
  | .full v => v.getD (P.bs - 1) .posZero
  | .hold x => x

/-- `zeros` (R15): BS samples of +0.0. -/
def zeros (P : Params) : List F64 := List.replicate P.bs .posZero

/-- Samples multiplied pairwise (R211, R251). -/
def mulBlocks (a b : List F64) : List F64 := List.zipWith mul64 a b

/-- Samples added pairwise, each sum rounded (R257). -/
def addBlocks (a b : List F64) : List F64 := List.zipWith add64 a b

/-- R40: a sample counter advanced by BS, modulo 2^64. -/
def advance (P : Params) (t : Word64) : Word64 := t + BitVec.ofNat 64 P.bs

/-- R142, R143: the sample index of sample i of a block, (t + i) mod 2^64. -/
def sampleIndex (t : Word64) (i : Nat) : Nat := (t + BitVec.ofNat 64 i).toNat

end Sys2Proof.Machine
end

