-- ==== Sys2Proof/Machine/Envelope.lean ====
section
/-! DEFINITION. Envelope (41_envelope.md): frames, build checks, samples, playback. -/

namespace Sys2Proof.Machine

/-- R161: a time in seconds to a frame; CONFIG_VALUE where the product is not finite. -/
def frames (P : Params) (t : F64) : Except FaultCode Int :=
  let v := mul64 t (i2f P.sr)
  if v.isFinite then .ok (roundTiesEven v) else .error .configValue

/-- R163: no segment runs backwards. -/
def framesOrdered : List Breakpoint → Bool
  | [] => true
  | [_] => true
  | p :: q :: rest => decide (p.frame ≤ q.frame) && framesOrdered (q :: rest)

/-- The frame of the first breakpoint, x_0 (R160). -/
def firstFrame (pts : List Breakpoint) : Int := (pts.head?.map Breakpoint.frame).getD 0

/-- The span S of a list that starts at frame 0: its last frame (R164). -/
def spanOf (pts : List Breakpoint) : Nat := ((pts.getLast?.map Breakpoint.frame).getD 0).toNat

/-- The value of the last breakpoint, y_{m−1} (R167). -/
def finalValue (pts : List Breakpoint) : F64 := (pts.getLast?.map Breakpoint.value).getD .posZero

/-- R164: L = ⌈S / BS⌉ × BS. -/
def bufLen (P : Params) (span : Nat) : Nat := (span + P.bs - 1) / P.bs * P.bs

/-- R166: whether a stored envelope of length L fits ENV_MAX_FRAMES. -/
def envFits (P : Params) (len : Nat) : Bool :=
  match P.envMax with
  | none => true
  | some m => decide (len ≤ m)

/-- The checks of env_build, in the order of R168: the fault, or `none`. -/
def envCheck (P : Params) (pts : List Breakpoint) (stored : Bool) : FaultCode :=
  if firstFrame pts ≠ 0 then .configError
  else if framesOrdered pts = false then .configOrder
  else if stored && !envFits P (bufLen P (spanOf pts)) then .envTooLong
  else .none

/-- The record env_build returns once its checks have passed (R168). -/
def envMake (P : Params) (pts : List Breakpoint) : Envelope :=
  { points := pts, len := bufLen P (spanOf pts), last := finalValue pts, cursor := 0 }

/-- R168: env_build. -/
def envBuild (P : Params) (pts : List Breakpoint) (stored : Bool) : Except FaultCode Envelope :=
  match envCheck P pts stored with
  | .none => .ok (envMake P pts)
  | c => .error c

/-- The step of a segment (R165): (y1 − y0) / d. -/
def segStep (p q : Breakpoint) : F64 :=
  div64 (sub64 q.value p.value) (i2f (q.frame - p.frame).toNat)

/-- Sample j of a segment, j counted from its start (R165): j × step + y0. -/
def segSample (p q : Breakpoint) (j : Nat) : F64 :=
  add64 (mul64 (i2f j) (segStep p q)) p.value

/-- buf[j] (R165, R167): the sample of the segment that holds frame j, or the last value. -/
def sampleAt : List Breakpoint → Nat → F64
  | [], _ => .posZero
  | [p], _ => p.value
  | p :: q :: rest, j =>
    if (j : Int) < q.frame then segSample p q ((j : Int) - p.frame).toNat
    else sampleAt (q :: rest) j

/-- All the samples of one segment, none when it is empty (R165). -/
def segFill (p q : Breakpoint) : List F64 :=
  (List.range (q.frame - p.frame).toNat).map (segSample p q)

/-- The segments of a list, one after the other (R165). -/
def segsFill : List Breakpoint → List F64
  | [] => []
  | [_] => []
  | p :: q :: rest => segFill p q ++ segsFill (q :: rest)

/-- The whole buffer as R165 and R167 fill it: the segments, then copies of the last value. The
machine computes its samples on demand (`Envelope.sample`); the statement
`Obligations.BufferFilledEqualsOnDemand` says the two agree. -/
def bufFill (P : Params) (pts : List Breakpoint) : List F64 :=
  segsFill pts ++ List.replicate (bufLen P (spanOf pts) - spanOf pts) (finalValue pts)

/-- buf[j] of an envelope record (R42, R304; log 5). -/
def Envelope.sample (e : Envelope) (j : Nat) : F64 := sampleAt e.points j

/-- buf[cursor .. cursor + BS − 1] (R169). -/
def Envelope.slice (P : Params) (e : Envelope) : List F64 :=
  (List.range P.bs).map fun i => e.sample (e.cursor + i)

/-- R169: env_step. -/
def envStep (P : Params) (e : Envelope) : Envelope × Block :=
  if e.cursor < e.len then ({ e with cursor := e.cursor + P.bs }, .full (e.slice P))
  else (e, .hold e.last)

/-- R170: env_reset. -/
def envReset (e : Envelope) : Envelope := { e with cursor := 0 }

end Sys2Proof.Machine
end

