-- ==== Sys2Proof/Machine/Adsr.lean ====
section
/-! DEFINITION. The ADSR state machine (42_adsr.md). -/

namespace Sys2Proof.Machine

/-- The breakpoints of the attack-decay curve (R190). -/
def adPoints (a0 a1 a2 : Int) (sustain : F64) : List Breakpoint :=
  [⟨a0, .posZero⟩, ⟨a1, .one⟩, ⟨a2, sustain⟩]

/-- The breakpoints of the release curve (R190). -/
def relPoints (r0 r1 : Int) (sustain : F64) : List Breakpoint :=
  [⟨r0, sustain⟩, ⟨r1, .posZero⟩]

/-- R190: adsr_build, its faults in the rule's order. -/
def adsrBuild (P : Params) (attack decay sustain release : F64) : Except FaultCode Adsr := do
  let a0 ← frames P .posZero
  let a1 ← frames P attack
  let a2 ← frames P (add64 attack decay)
  let ad ← envBuild P (adPoints a0 a1 a2 sustain) true
  let r0 ← frames P .posZero
  let r1 ← frames P release
  let rel ← envBuild P (relPoints r0 r1 sustain) true
  return { state := .idle, last := .posZero, ad := ad, rel := rel }

/-- R191: adsr_start. -/
def adsrStart (a : Adsr) : Adsr := { a with state := .active, ad := envReset a.ad }

/-- R192: adsr_release. -/
def adsrRelease (a : Adsr) : Adsr := { a with state := .releasing, rel := envReset a.rel }

/-- R193: the step in state idle. -/
def adsrStepIdle (P : Params) (a : Adsr) : Adsr × Block :=
  ({ a with last := .posZero }, .full (zeros P))

/-- R194: the step in state active. -/
def adsrStepActive (P : Params) (a : Adsr) : Adsr × Block :=
  let (e, b) := envStep P a.ad
  ({ a with ad := e, last := b.lastSample P }, b)

/-- R195: the step in state releasing; idle once the block's last sample equals 0. -/
def adsrStepReleasing (P : Params) (a : Adsr) : Adsr × Block :=
  let (e, b) := envStep P a.rel
  let l := b.lastSample P
  ({ a with rel := e, last := l, state := if eq64 l .posZero then .idle else .releasing }, b)

/-- R193–R195: adsr_step. -/
def adsrStep (P : Params) (a : Adsr) : Adsr × Block :=
  match a.state with
  | .idle => adsrStepIdle P a
  | .active => adsrStepActive P a
  | .releasing => adsrStepReleasing P a

end Sys2Proof.Machine
end

