-- ==== Sys2Proof/Machine/Oscillator.lean ====
section
/-! DEFINITION. Oscillator and FM oscillator (40_oscillator.md). -/

namespace Sys2Proof.Machine

/-- R141: the constant 2π, encoding 0x401921FB54442D18. -/
def twoPi : F64 := .fin false 1025 0x921FB54442D18

/-- R142: ((2π × f) × n) / SR + ph, every step rounded, left to right. -/
def phaseArg (P : Params) (f : F64) (n : Nat) (ph : F64) : F64 :=
  add64 (div64 (mul64 (mul64 twoPi f) (i2f n)) (i2f P.sr)) ph

/-- R140. -/
def oscBuild (freq amp phase : F64) : Osc := { freq := freq, amp := amp, phase := phase, t := 0 }

/-- Sample i of an oscillator's next block (R143). -/
def Osc.sample (P : Params) (o : Osc) (i : Nat) : F64 :=
  mul64 o.amp (P.SIN (phaseArg P o.freq (sampleIndex o.t i) o.phase))

/-- R143: the next block, and the record with its counter advanced. -/
def oscStep (P : Params) (o : Osc) : Osc × List F64 :=
  ({ o with t := advance P o.t }, (List.range P.bs).map (o.sample P))

/-- R146: the modulator has phase +0.0 and amplitude β. -/
def fmBuild (fc amp fm beta : F64) : FmOsc :=
  { fc := fc, amp := amp, t := 0, mod := oscBuild fm beta .posZero }

/-- Sample i of an FM oscillator's next block, given the modulator's block (R147). -/
def FmOsc.sample (P : Params) (f : FmOsc) (mod : List F64) (i : Nat) : F64 :=
  mul64 f.amp (P.SIN (phaseArg P f.fc (sampleIndex f.t i) (mod.getD i .posZero)))

/-- R147: the modulator block first, then the carrier block; both counters advance. -/
def fmStep (P : Params) (f : FmOsc) : FmOsc × List F64 :=
  let (m, mod) := oscStep P f.mod
  ({ f with t := advance P f.t, mod := m }, (List.range P.bs).map (f.sample P mod))

/-- R150: the carrier amplitude. -/
def setAmp (f : FmOsc) (v : F64) : FmOsc := { f with amp := v }

/-- R150: the modulator's frequency, in Hz. -/
def setFm (f : FmOsc) (v : F64) : FmOsc := { f with mod := { f.mod with freq := v } }

/-- R150: the modulator's amplitude β. -/
def setBeta (f : FmOsc) (v : F64) : FmOsc := { f with mod := { f.mod with amp := v } }

end Sys2Proof.Machine
end

