-- ==== Sys2Proof/Machine/Voice.lean ====
section
/-! DEFINITION. The voice (43_voice.md). -/

namespace Sys2Proof.Machine

/-- R210: voice_build; the new voice is on and its ADSR active. -/
def voiceBuild (fc amp fm beta : F64) (adsr : Adsr) : Voice :=
  { state := .on, fm := fmBuild fc amp fm beta, adsr := adsrStart adsr }

/-- R211, R212: voice_step; the voice is off once its ADSR is idle. -/
def voiceStep (P : Params) (v : Voice) : Voice × List F64 :=
  let (fm, f) := fmStep P v.fm
  let (adsr, b) := adsrStep P v.adsr
  ({ state := if adsr.state = .idle then .off else v.state, fm := fm, adsr := adsr },
    mulBlocks f (b.vals P))

/-- R213: voice_note_off. -/
def voiceNoteOff (v : Voice) : Voice := { v with adsr := adsrRelease v.adsr }

/-- R214: voice_set_amp. -/
def voiceSetAmp (v : Voice) (x : F64) : Voice := { v with fm := setAmp v.fm x }

/-- R214: voice_set_fm. -/
def voiceSetFm (v : Voice) (x : F64) : Voice := { v with fm := setFm v.fm x }

/-- R214: voice_set_beta. -/
def voiceSetBeta (v : Voice) (x : F64) : Voice := { v with fm := setBeta v.fm x }

end Sys2Proof.Machine
end

