-- ==== Sys2Proof/Machine/Mixer.lean ====
section
/-! DEFINITION. NEXT and STOP: the mixing pass and the panic button (R257, R258, R260). -/

namespace Sys2Proof.Machine

/-- One visit of a slot by NEXT (R257): the slot after it, and the block it adds to the mix, if
any. -/
def visitSlot (P : Params) (sl : Slot) : Slot × Option (List F64) :=
  if sl.mapped = false then (sl, none)
  else if sl.voice.state = .off then ({ sl with mapped := false, tailValid := false }, none)
  else if sl.tailValid then ({ sl with tailValid := false }, some sl.tail)
  else
    let (v, b) := voiceStep P sl.voice
    ({ sl with voice := v }, some b)

/-- The mix after a block is added to it, or after a slot that adds none (R257). -/
def mixIn (acc : List F64) : Option (List F64) → List F64
  | none => acc
  | some b => addBlocks acc b

/-- NEXT's loop over MIX_ORDER (R257), on the slot file and the mix so far. -/
def mixLoop (P : Params) : List Nat → List Slot → List F64 → List Slot × List F64
  | [], slots, acc => (slots, acc)
  | k :: ks, slots, acc =>
    let (sl, b) := visitSlot P (slots.getD k .blank)
    mixLoop P ks (slots.set k sl) (mixIn acc b)

/-- R257: NEXT. -/
def execNext (s : State) : Host.Outcome State Fault Refusal :=
  .next (
    let r := mixLoop s.params s.params.mixOrder s.slots (zeros s.params)
    { s with slots := r.1, out := r.2 })

/-- A slot after STOP (R260): its voice and tail are dropped, their storage is not touched. -/
def stopSlot (sl : Slot) : Slot := { sl with mapped := false, tailValid := false }

/-- R260: STOP. -/
def execStop (s : State) : Host.Outcome State Fault Refusal :=
  .next { s with slots := s.slots.map stopSlot }

end Sys2Proof.Machine
end

