-- ==== Sys2Proof/Machine/Mutators.lean ====
section
/-! DEFINITION. SET_AMP, SET_FM and SET_BETA (R262–R264). -/

namespace Sys2Proof.Machine

/-- The shared form of the SET commands (R262–R264): `f` applied to the voice of slot n when n is
in range and the slot is mapped, on or off; otherwise nothing. -/
def updateMapped (n : Nat) (f : Voice → Voice) (s : State) : State :=
  if n < s.params.nNotes ∧ (s.slot n).mapped then
    s.setSlot n { s.slot n with voice := f (s.slot n).voice }
  else s

/-- R262: SET_AMP n. -/
def execSetAmp (n : Nat) (s : State) : Host.Outcome State Fault Refusal :=
  .next (updateMapped n (fun v => voiceSetAmp v s.arg) s)

/-- R263: SET_FM n; ARG is in Hz. -/
def execSetFm (n : Nat) (s : State) : Host.Outcome State Fault Refusal :=
  .next (updateMapped n (fun v => voiceSetFm v s.arg) s)

/-- R264: SET_BETA n. -/
def execSetBeta (n : Nat) (s : State) : Host.Outcome State Fault Refusal :=
  .next (updateMapped n (fun v => voiceSetBeta v s.arg) s)

end Sys2Proof.Machine
end

