-- ==== Sys2Proof/Machine/Flags.lean ====
section
/-! DEFINITION. Field registers: the fault code's byte, STATUS (R35) and CFG_FLAGS (R33). -/

namespace Sys2Proof.Machine

/-- The 8-bit value of a fault code (R281). -/
def FaultCode.byte : FaultCode → BitVec 8
  | .none => 0x00
  | .illegalCmd => 0x01
  | .noteRange => 0x02
  | .configError => 0x03
  | .configValue => 0x04
  | .configOrder => 0x05
  | .envTooLong => 0x06
  | .busyViolation => 0x07
  | .badAccess => 0x08

/-- STATUS as a host read returns it (R35): reserved bits read as 0. -/
def State.statusWord (s : State) : Word64 :=
  0#16 ++ s.faultOff ++ 0#4 ++ s.faultOp ++ s.faultNote ++ s.faultCode.byte ++ 0#6 ++
    BitVec.ofBool s.halted ++ BitVec.ofBool s.busy

/-- What a write of `v` leaves in CFG_FLAGS: bits 63:1 ignore writes and read 0 (R33, R73). -/
def flagsOfWrite (v : Word64) : Word64 := v &&& 1

/-- CFG_FLAGS.FM_ABS (R33). -/
def State.fmAbs (s : State) : Bool := s.cfgFlags.getLsbD 0

end Sys2Proof.Machine
end

