-- ==== Sys2Proof/Machine/Operands.lean ====
section
/-! DEFINITION. The register map (R104) and the operands a command reads from it (R103). -/

namespace Sys2Proof.Machine

/-- The host registers (R104). -/
inductive HostReg where
  | cmd | status | cfgAmp | cfgFm | cfgBeta | cfgAttack | cfgDecay | cfgSustain | cfgRelease
  | cfgFlags | arg | param0 | param1
  | out (i : Nat)
deriving DecidableEq, Repr

/-- The offsets of the registers below the OUT window (R104). -/
def regOffsets : List (Nat × HostReg) :=
  [ (0x000, .cmd), (0x008, .status), (0x010, .cfgAmp), (0x018, .cfgFm), (0x020, .cfgBeta),
    (0x028, .cfgAttack), (0x030, .cfgDecay), (0x038, .cfgSustain), (0x040, .cfgRelease),
    (0x048, .cfgFlags), (0x050, .arg), (0x058, .param0), (0x060, .param1) ]

/-- The register at an offset, or nothing: R104, with the OUT window 0x100 ≤ off < 0x100 + 8·BS. -/
def regAt (P : Params) (off : BitVec 16) : Option HostReg :=
  let n := off.toNat
  if 0x100 ≤ n ∧ n < 0x100 + 8 * P.bs ∧ n % 8 = 0 then some (.out ((n - 0x100) / 8))
  else regOffsets.lookup n

/-- The register an access of `width` bytes at `off` reaches: R72 refuses another width than 8
and an offset that is not a multiple of 8 (no register has one). -/
def accessReg (P : Params) (off : BitVec 16) (width : Nat) : Option HostReg :=
  if width = 8 ∧ off.toNat % 8 = 0 then regAt P off else none

/-- The writable registers (R104): CMD and 0x010–0x050. -/
def HostReg.writable : HostReg → Bool
  | .cmd => true
  | .status => false
  | .cfgAmp => true
  | .cfgFm => true
  | .cfgBeta => true
  | .cfgAttack => true
  | .cfgDecay => true
  | .cfgSustain => true
  | .cfgRelease => true
  | .cfgFlags => true
  | .arg => true
  | .param0 => false
  | .param1 => false
  | .out _ => false

/-- PARAM0 (R74, R104): SR in bits 63:32, BS in bits 31:0. -/
def param0Word (P : Params) : Word64 := BitVec.ofNat 32 P.sr ++ BitVec.ofNat 32 P.bs

/-- The ENV_MAX_FRAMES field of PARAM1 (R74, R104): 0 when ∞. DESIGN CHOICE (log 10): a bound that
does not fit the 32 bits, which the rule does not state, reads as a free value. -/
def envMaxField (P : Params) : BitVec 32 :=
  match P.envMax with
  | none => 0
  | some m => if m < 2 ^ 32 then BitVec.ofNat 32 m else Config.param1Wide m

/-- PARAM1 (R74, R104): ENV_MAX_FRAMES in bits 63:32, N_NOTES in bits 31:0. -/
def param1Word (P : Params) : Word64 := envMaxField P ++ BitVec.ofNat 32 P.nNotes

/-- What a read of a register returns (R74, R75); OUT while BUSY = 0. -/
def State.readReg (s : State) : HostReg → Word64
  | .cmd => s.cmdLast
  | .status => s.statusWord
  | .cfgAmp => s.cfgAmp.toBits
  | .cfgFm => s.cfgFm.toBits
  | .cfgBeta => s.cfgBeta.toBits
  | .cfgAttack => s.cfgAttack.toBits
  | .cfgDecay => s.cfgDecay.toBits
  | .cfgSustain => s.cfgSustain.toBits
  | .cfgRelease => s.cfgRelease.toBits
  | .cfgFlags => s.cfgFlags
  | .arg => s.arg.toBits
  | .param0 => param0Word s.params
  | .param1 => param1Word s.params
  | .out i => (s.out.getD i .posZero).toBits

/-- What a write to a writable register does once the checks have passed (R73). -/
def State.writeReg (s : State) (r : HostReg) (v : Word64) : State :=
  match r with
  | .cmd => s.latchCommand v
  | .status => s
  | .cfgAmp => { s with cfgAmp := .ofBits v }
  | .cfgFm => { s with cfgFm := .ofBits v }
  | .cfgBeta => { s with cfgBeta := .ofBits v }
  | .cfgAttack => { s with cfgAttack := .ofBits v }
  | .cfgDecay => { s with cfgDecay := .ofBits v }
  | .cfgSustain => { s with cfgSustain := .ofBits v }
  | .cfgRelease => { s with cfgRelease := .ofBits v }
  | .cfgFlags => { s with cfgFlags := flagsOfWrite v }
  | .arg => { s with arg := .ofBits v }
  | .param0 => s
  | .param1 => s
  | .out _ => s

/-- The carrier frequency of note n, FREQ_TABLE[n] (R103, R250). -/
def carrierFreq (P : Params) (n : Nat) : F64 := P.freqTable.getD n .posZero

/-- The modulation frequency NOTE_ON uses (R33, R250): CFG_FM in Hz when FM_ABS = 1, otherwise
CFG_FM times the carrier frequency. -/
def State.modFreq (s : State) (fc : F64) : F64 :=
  if s.fmAbs then s.cfgFm else mul64 fc s.cfgFm

end Sys2Proof.Machine
end

