-- ==== Sys2Proof/Machine/Notes.lean ====
section
/-! DEFINITION. NOTE_ON and NOTE_OFF (R250, R251, R255). -/

namespace Sys2Proof.Machine

/-- The breakpoints of the crossfade's fade envelope: (0, a) and (BS, +0.0), in frames (R251). -/
def fadePoints (P : Params) (a : F64) : List Breakpoint := [⟨0, a⟩, ⟨P.bs, .posZero⟩]

/-- The samples of the fade envelope (R251): its one block. It is not stored and its checks cannot
fail (R251), so it is made without them. -/
def fadeBlock (P : Params) (a : F64) : List F64 :=
  (envStep P (envMake P (fadePoints P a))).2.vals P

/-- R251: the tail is the fade times one more block of the old voice. -/
def crossfade (P : Params) (sl : Slot) : Slot :=
  let (v, o) := voiceStep P sl.voice
  { sl with voice := v, tail := mulBlocks (fadeBlock P sl.voice.adsr.last) o, tailValid := true }

/-- The slot NOTE_ON leaves: a live voice is crossfaded, then replaced (R250). -/
def noteOnSlot (P : Params) (sl : Slot) (v : Voice) : Slot :=
  let sl' := if sl.live then crossfade P sl else sl
  { sl' with voice := v, mapped := true }

/-- The voice NOTE_ON builds from FREQ_TABLE, the CFG registers and a built ADSR (R250). -/
def noteOnVoice (s : State) (n : Nat) (adsr : Adsr) : Voice :=
  let fc := carrierFreq s.params n
  voiceBuild fc s.cfgAmp (s.modFreq fc) s.cfgBeta adsr

/-- NOTE_ON's checks and its ADSR (R250): every check comes before any state change. -/
def noteOnAdsr (s : State) (n : Nat) : Except FaultCode Adsr :=
  if s.params.nNotes ≤ n then .error .noteRange
  else adsrBuild s.params s.cfgAttack s.cfgDecay s.cfgSustain s.cfgRelease

/-- R250: NOTE_ON n. A failing check is recorded and nothing else changes (R284). -/
def execNoteOn (n : Nat) (s : State) : Host.Outcome State Fault Refusal :=
  .next (match noteOnAdsr s n with
    | .error c => s.raiseCommand c n 1
    | .ok adsr => s.setSlot n (noteOnSlot s.params (s.slot n) (noteOnVoice s n adsr)))

/-- The slot NOTE_OFF leaves (R255, R213). -/
def noteOffSlot (sl : Slot) : Slot :=
  if sl.live then { sl with voice := voiceNoteOff sl.voice } else sl

/-- R255: NOTE_OFF n. An unknown, unmapped or off note is a no-op. -/
def execNoteOff (n : Nat) (s : State) : Host.Outcome State Fault Refusal :=
  .next (if n < s.params.nNotes then s.setSlot n (noteOffSlot (s.slot n)) else s)

end Sys2Proof.Machine
end

