-- ==== Sys2Proof/Machine/Dispatch.lean ====
section
/-! DEFINITION. One arm per command. -/

namespace Sys2Proof.Machine

def exec (i : Instr) (s : State) : Host.Outcome State Fault Refusal :=
  match i with
  | .noteOn n => Sys2Proof.Machine.execNoteOn n s
  | .noteOff n => Sys2Proof.Machine.execNoteOff n s
  | .next => Sys2Proof.Machine.execNext s
  | .stop => Sys2Proof.Machine.execStop s
  | .setAmp n => Sys2Proof.Machine.execSetAmp n s
  | .setFm n => Sys2Proof.Machine.execSetFm n s
  | .setBeta n => Sys2Proof.Machine.execSetBeta n s

end Sys2Proof.Machine
end

