-- ==== Sys2Proof/Machine/Window.lean ====
section
/-! DEFINITION. The HOST agent's accesses: MemRead, MemWrite, WAIT's poll (R72–R76, R121). -/

namespace Sys2Proof.Machine

/-- R72, R73: a host write of `width` bytes at offset `off`, its checks in the rule's order. -/
def hostWrite (s : State) (off : BitVec 16) (width : Nat) (v : Word64) : State :=
  if s.halted then s
  else
    match accessReg s.params off width with
    | none => s.raiseAccess .badAccess off
    | some r =>
      if r.writable = false then s.raiseAccess .badAccess off
      else if s.busy then s.raiseAccess .busyViolation off
      else s.writeReg r v

/-- R74: a read of a register; OUT while BUSY = 1 returns any value (R333). -/
def readAnswer (s : State) : HostReg → State
  | .out i => if s.busy then s.answerAny else s.answer (s.readReg (.out i))
  | r => s.answer (s.readReg r)

/-- R72, R74: a host read of `width` bytes at offset `off`; a refused read records a fault and
returns any value. -/
def hostRead (s : State) (off : BitVec 16) (width : Nat) : State :=
  match accessReg s.params off width with
  | none => (s.raiseAccess .badAccess off).answerAny
  | some r => readAnswer s r

/-- The offset of a platform address in the core's window, if it lies there (R70, R78). -/
def windowOffset (P : Params) (addr : Nat) : Option (BitVec 16) :=
  if P.base ≤ addr ∧ addr < P.base + 2 ^ 16 then some (BitVec.ofNat 16 (addr - P.base)) else none

/-- A host write at a platform address. One outside the window does not reach the core (R78;
log 12). -/
def busWrite (s : State) (addr width : Nat) (v : Word64) : State :=
  match windowOffset s.params addr with
  | none => s
  | some off => hostWrite s off width v

/-- A host read at a platform address. One outside the window does not reach the core, and what
the platform answers is free (R78; log 12). -/
def busRead (s : State) (addr width : Nat) : State :=
  match windowOffset s.params addr with
  | none => s.answerAny
  | some off => hostRead s off width

/-- One poll of WAIT (R121): STATUS is read; while BUSY = 1 the CORE has its turn before the next
poll (log 7). `rest` are the events after the WAIT. -/
def waitPoll (s : State) (rest : List Event) : State :=
  let s' := hostRead s 0x008 8
  if s.busy then s'.setAgenda (.core :: .wait :: rest) else s'.setAgenda rest

end Sys2Proof.Machine
end

