-- ==== Sys2Proof/Machine/Agents.lean ====
section
/-! DEFINITION. The CORE agent's completion (R240) and the turn of each agent (R20). -/

namespace Sys2Proof.Machine

/-- An illegal word completes by the fault ILLEGAL_CMD with its NOTE and OP fields (R106, R240). -/
def illegalCommand (s : State) (w : Word64) : State :=
  s.raise .illegalCmd (noteField w) (opField w) 0

/-- Running a command word (R240): decode, then the rule of the command. -/
def runCommand (s : State) (w : Word64) : Host.Outcome State Fault Refusal :=
  match decode w with
  | .ok i => exec i s
  | .error _ => .next (illegalCommand s w)

/-- R240: completion, enabled when BUSY = 1, HALTED or not. -/
def complete (s : State) : Host.Outcome State Fault Refusal :=
  match s.pending with
  | none => .fault .busyWithoutPending
  | some w =>
    match runCommand s w with
    | .next t => .next t.finishCommand
    | .fault f => .fault f
    | .refused r => .refused r

/-- The CORE agent's turn: completion if BUSY = 1, otherwise it takes no step and holds all its
state (R240, R315; log 17). -/
def coreTurn (s : State) : Host.Outcome State Fault Refusal :=
  if s.busy then complete s else .next s

/-- One step of the system: the first event of the agenda, or the CORE's turn when none is left
(R20, R80, R240; log 6). -/
def agentStep (s : State) : Host.Outcome State Fault Refusal :=
  match s.agenda with
  | [] => coreTurn s
  | .core :: rest => coreTurn (s.setAgenda rest)
  | .read addr width :: rest => .next (busRead (s.setAgenda rest) addr width)
  | .write addr width v :: rest => .next (busWrite (s.setAgenda rest) addr width v)
  | .wait :: rest => .next (waitPoll s rest)
  | .reset :: rest => .next (s.setAgenda rest).platformReset

/-- A command word delivered to the core as a write to CMD delivers it (R73), the CORE's turn
next (log 13). -/
def deliverCommand (s : State) (w : Word64) : State :=
  (s.latchCommand w).setAgenda (.core :: s.agenda)

end Sys2Proof.Machine
end

