-- ==== Sys2Proof/Machine/Step.lean ====
section
/-! DEFINITION. One step of the machine, and the placing of a command word. -/

namespace Sys2Proof.Machine

/-- One step of the machine: one event of the host, or one completion of the core (R20, R240). -/
def step (s : State) : Host.Outcome State Fault Refusal := agentStep s

/-- The state with the command word `w mod 2^nbits` placed where the next step takes it: latched in
CMD_LAST and PENDING with BUSY = 1, as a host write to CMD does (R73), and the CORE's turn next
(log 13). -/
def State.withFetchWord (s : State) (nbits w : Nat) : State :=
  deliverCommand s (BitVec.ofNat 64 (w % 2 ^ nbits))

end Sys2Proof.Machine
end

