-- ==== Sys2Proof/Safety.lean ====
section
/-! DEFINITION. What a good state is: the invariants of 10_state.md (R43–R45) and of STATUS (R285). -/

namespace Sys2Proof.Machine

/-- R43, R166, R172: the cursor and the length are multiples of BS, the cursor is within the
buffer, and a stored buffer fits ENV_MAX_FRAMES. -/
structure Envelope.Ok (P : Params) (e : Envelope) : Prop where
  len_mod : e.len % P.bs = 0
  cursor_mod : e.cursor % P.bs = 0
  cursor_le : e.cursor ≤ e.len
  fits : envFits P e.len = true

/-- R45, R148, R167: a mapped slot's voice is off exactly when its ADSR is idle, its two sample
counters agree, its envelopes are good and its release envelope ends at +0.0. -/
structure Voice.Ok (P : Params) (v : Voice) : Prop where
  off_iff_idle : v.state = .off ↔ v.adsr.state = .idle
  counters : v.fm.t = v.fm.mod.t
  ad_ok : v.adsr.ad.Ok P
  rel_ok : v.adsr.rel.Ok P
  rel_last : v.adsr.rel.last = .posZero

/-- R44: what a pending tail says of its slot: the voice is mapped and on, the tail is a full
block, and no voice step has happened since the tail was stored. -/
structure Slot.TailOk (P : Params) (sl : Slot) : Prop where
  mapped : sl.mapped = true
  on : sl.voice.state = .on
  tail_length : sl.tail.length = P.bs
  fresh_t : sl.voice.fm.t = 0
  fresh_last : sl.voice.adsr.last = .posZero
  fresh_ad : sl.voice.adsr.ad.cursor = 0
  fresh_rel : sl.voice.adsr.rel.cursor = 0

/-- R44, R45: a good slot. -/
structure Slot.Ok (P : Params) (sl : Slot) : Prop where
  voice_ok : sl.mapped = true → sl.voice.Ok P
  tail_ok : sl.tailValid = true → sl.TailOk P

/-- The invariant of the machine, true of every state between two steps. -/
structure State.Inv (s : State) : Prop where
  /-- R8: the parameters are legal. -/
  params_legal : s.params.Legal
  /-- R47: OUT has BS samples. -/
  out_length : s.out.length = s.params.bs
  /-- R303: no OUT sample is −0.0. -/
  out_no_negZero : ∀ x ∈ s.out, x ≠ F64.negZero
  /-- R36: there are N_NOTES slots. -/
  slots_length : s.slots.length = s.params.nNotes
  /-- R43–R45: every slot is good. -/
  slots_ok : ∀ sl ∈ s.slots, sl.Ok s.params
  /-- R35, R240: a command is pending exactly while BUSY = 1. -/
  busy_iff_pending : s.busy = s.pending.isSome
  /-- R285: HALTED = 1 if and only if FAULT_CODE ≠ 0. -/
  halted_iff_fault : s.halted = true ↔ s.faultCode ≠ .none
  /-- R281, R283: with no fault recorded the other fields of the record are 0. -/
  clean_record : s.faultCode = .none → s.faultNote = 0 ∧ s.faultOp = 0 ∧ s.faultOff = 0
  /-- R33: the reserved bits of CFG_FLAGS read as 0. -/
  flags_reserved : s.cfgFlags &&& 1 = s.cfgFlags

end Sys2Proof.Machine
end

