-- ==== Sys2Proof/Certificates/Slice0/Obligations.lean ====
section
/-! DEFINITION. The statements for the provers, file by file of spec/. -/

namespace Sys2Proof.Machine

/-- ⌈S / BS⌉ × BS (R164), for a span given as a frame. -/
def paddedLen (P : Params) (frame : Int) : Nat := (frame.toNat + (P.bs - 1)) / P.bs * P.bs

/-- L ≤ ENV_MAX_FRAMES, or ENV_MAX_FRAMES = ∞ (R166). -/
def fitsBound (P : Params) (len : Nat) : Bool := P.envMax.all fun m => decide (len ≤ m)

/-- The product t × SR that frames() rounds (R161). -/
def timeProduct (P : Params) (t : F64) : F64 := mul64 t (i2f P.sr)

/-- The frame of a time whose product is finite (R161). -/
def frameOf (P : Params) (t : F64) : Int := roundTiesEven (timeProduct P t)

/-- When NOTE_ON n is accepted (R250, R190): the note exists, the three products are finite and
round to the frames a1, a2 and r1, no segment runs backwards, and both envelopes fit. -/
structure NoteOnAccepts (s : State) (n : Nat) (a1 a2 r1 : Int) : Prop where
  note : n < s.params.nNotes
  attack : (timeProduct s.params s.cfgAttack).isFinite = true
  attack_frame : frameOf s.params s.cfgAttack = a1
  decay : (timeProduct s.params (add64 s.cfgAttack s.cfgDecay)).isFinite = true
  decay_frame : frameOf s.params (add64 s.cfgAttack s.cfgDecay) = a2
  release : (timeProduct s.params s.cfgRelease).isFinite = true
  release_frame : frameOf s.params s.cfgRelease = r1
  attack_forward : 0 ≤ a1
  decay_forward : a1 ≤ a2
  release_forward : 0 ≤ r1
  ad_fits : fitsBound s.params (paddedLen s.params a2) = true
  rel_fits : fitsBound s.params (paddedLen s.params r1) = true

/-- The voice R250, R190 and R210 build for note n from the CFG registers, field by field. -/
def newVoice (s : State) (n : Nat) (a1 a2 r1 : Int) : Voice :=
  { state := .on
    fm := { fc := s.params.freqTable.getD n .posZero
            amp := s.cfgAmp
            t := 0
            mod := { freq := if s.cfgFlags.getLsbD 0 = true then s.cfgFm
                       else mul64 (s.params.freqTable.getD n .posZero) s.cfgFm
                     amp := s.cfgBeta
                     phase := .posZero
                     t := 0 } }
    adsr := { state := .active
              last := .posZero
              ad := { points := [⟨0, .posZero⟩, ⟨a1, .one⟩, ⟨a2, s.cfgSustain⟩]
                      len := paddedLen s.params a2
                      last := s.cfgSustain
                      cursor := 0 }
              rel := { points := [⟨0, s.cfgSustain⟩, ⟨r1, .posZero⟩]
                       len := paddedLen s.params r1
                       last := .posZero
                       cursor := 0 } } }

/-- Sample j of the crossfade's fade envelope from level a (R251). -/
def fadeSample (P : Params) (a : F64) (j : Nat) : F64 :=
  add64 (mul64 (i2f j) (div64 (sub64 .posZero a) (i2f P.bs))) a

/-- The checks of one ADSR envelope, in the order of R290, from whether its frames run forward and
from its last frame. -/
def envFailure (P : Params) (forward : Bool) (lastFrame : Int) : FaultCode :=
  if forward = false then .configOrder
  else if fitsBound P (paddedLen P lastFrame) = false then .envTooLong
  else .none

/-- The first failing check of NOTE_ON n, in the order of R290; `none` when it is accepted. -/
def noteOnFirstFailure (s : State) (n : Nat) : FaultCode :=
  if s.params.nNotes ≤ n then .noteRange
  else if (timeProduct s.params s.cfgAttack).isFinite = false then .configValue
  else if (timeProduct s.params (add64 s.cfgAttack s.cfgDecay)).isFinite = false then .configValue
  else
    match envFailure s.params
        (decide (0 ≤ frameOf s.params s.cfgAttack) &&
          decide (frameOf s.params s.cfgAttack ≤ frameOf s.params (add64 s.cfgAttack s.cfgDecay)))
        (frameOf s.params (add64 s.cfgAttack s.cfgDecay)) with
    | .none =>
      if (timeProduct s.params s.cfgRelease).isFinite = false then .configValue
      else envFailure s.params (decide (0 ≤ frameOf s.params s.cfgRelease))
        (frameOf s.params s.cfgRelease)
    | failure => failure

/-- What R257 leaves of a slot: an off voice is removed, a pending tail is consumed, and any other
live voice is stepped. -/
def slotAfterNext (P : Params) (sl : Slot) : Slot :=
  if sl.mapped = true then
    match sl.voice.state, sl.tailValid with
    | .off, _ => { sl with mapped := false, tailValid := false }
    | .on, true => { sl with tailValid := false }
    | .on, false => { sl with voice := (voiceStep P sl.voice).1 }
  else sl

/-- The block R258 has a slot add to the mix: nothing unless live, else its tail or its step. -/
def slotContribution (P : Params) (sl : Slot) : Option (List F64) :=
  if sl.mapped = true ∧ sl.voice.state = .on then
    some (if sl.tailValid = true then sl.tail else (voiceStep P sl.voice).2)
  else none

/-- The mix R258 describes: from zeros, each contribution added in MIX_ORDER, rounded each time. -/
def mixedBlock (s : State) : List F64 :=
  s.params.mixOrder.foldl
    (fun acc k =>
      match slotContribution s.params (s.slot k) with
      | none => acc
      | some b => List.zipWith add64 acc b)
    (List.replicate s.params.bs .posZero)

/-- The state with a fault recorded as R285 says, when no fault was recorded before. -/
def firstFault (s : State) (code : FaultCode) (note : BitVec 8) (op : BitVec 4) (off : BitVec 16) :
    State :=
  { s with halted := true, faultCode := code, faultNote := note, faultOp := op, faultOff := off }

/-- The illegal words of R106. -/
def IllegalWord (w : Word64) : Prop :=
  w.extractLsb' 0 4 = 0 ∨ 8 ≤ (w.extractLsb' 0 4).toNat ∨ w.extractLsb' 4 4 ≠ 0 ∨
    w.extractLsb' 16 48 ≠ 0 ∨
    ((w.extractLsb' 0 4 = 3 ∨ w.extractLsb' 0 4 = 4) ∧ w.extractLsb' 8 8 ≠ 0)

/-- The writable offsets of R104. -/
def writableOffsets : List Nat :=
  [0x000, 0x010, 0x018, 0x020, 0x028, 0x030, 0x038, 0x040, 0x048, 0x050]

/-- The offsets of the OUT window (R104): 0x100 + 8·i for i < BS. -/
def inOutWindow (P : Params) (off : BitVec 16) : Prop := ∃ i, i < P.bs ∧ off.toNat = 0x100 + 8 * i

/-- The readable offsets of R104: 0x000–0x060 and the OUT window. -/
def readableOffset (P : Params) (off : BitVec 16) : Prop :=
  (off.toNat ≤ 0x060 ∧ off.toNat % 8 = 0) ∨ inOutWindow P off

/-- The CORE's turn comes next, and `rest` is what comes after it (log 6). -/
def CoreNext (s : State) (rest : List Event) : Prop :=
  s.agenda = .core :: rest ∨ (s.agenda = [] ∧ rest = [])

/-- The state after a refused access: the first fault is recorded, a later one changes nothing but
HALTED, which is 1 already (R285). -/
def refusedAccess (s : State) (code : FaultCode) (off : BitVec 16) : State :=
  if s.faultCode = .none then firstFault s code 0 0 off else { s with halted := true }

/-- The state after a read whose value the spec leaves open: a free value is answered (log 9). -/
def freeAnswer (s : State) : State :=
  { s with rdata := some (Config.freeRead s.freeCtr), freeCtr := s.freeCtr + 1 }

/-- The state after an illegal command word has completed (R106, R240, R285). -/
def illegalCompleted (s : State) (w : Word64) : State :=
  { (if s.faultCode = .none then
      firstFault s .illegalCmd (w.extractLsb' 8 8) (w.extractLsb' 0 4) 0
    else { s with halted := true }) with pending := none, busy := false }

/-- The number a finite binary64 encoding stands for, field by field: sign bit 63, exponent field
62:52, significand field 51:0 (IEEE 754, log 19). -/
def encodedValue (b : Word64) : ℚ :=
  (if b.getLsbD 63 = true then -1 else 1) *
    (if b.extractLsb' 52 11 = 0 then ((b.extractLsb' 0 52).toNat : ℚ)
      else 2 ^ 52 + (b.extractLsb' 0 52).toNat) *
    2 ^ ((b.extractLsb' 52 11).toNat - 1) / 2 ^ 1074

/-- The number a finite value stands for. -/
def valueOf (x : F64) : ℚ := encodedValue x.toBits

/-- The sign bit of a value (R75). -/
def signBit (x : F64) : Bool := x.toBits.getLsbD 63

/-- r is the binary64 result of the exact number x, rounded to nearest, ties to even, an infinity
on overflow and never flushed (R14, R300; log 19). -/
structure RoundsTo (x : ℚ) (r : F64) : Prop where
  overflow : r.isFinite = true ↔ |x| < 2 ^ 1024 - 2 ^ 970
  infinite : r.isFinite = false → r = .inf (decide (x < 0))
  nearest : r.isFinite = true → ∀ y : F64, y.isFinite = true →
    |valueOf r - x| ≤ |valueOf y - x|
  ties : r.isFinite = true → ∀ y : F64, y.isFinite = true → valueOf y ≠ valueOf r →
    |valueOf y - x| = |valueOf r - x| → r.toBits.getLsbD 0 = false
  sign : x ≠ 0 → signBit r = decide (x < 0)

end Sys2Proof.Machine

open Sys2Proof Sys2Proof.Machine

/-! ### Encoding (30_encoding.md) -/

/-- R105, R107, R120: decoding an encoded well-formed command gives it back, from the word and
from its bytes. -/
def Obligations.DecodeEncodeRoundTrip : Prop :=
  ∀ i : Instr, i.wf = true →
    decode (encode i) = .ok i ∧
    ∀ rest : List Byte, decodeBytes (wordBytes (encode i) ++ rest) = .ok (i, rest)

/-- R107, R120: a word that decodes is the word of the command it decodes to. -/
def Obligations.EncodeDecodeRoundTrip : Prop :=
  ∀ (w : Word64) (i : Instr), decode w = .ok i → i.wf = true ∧ encode i = w

/-- R105: a word is legal exactly when it matches one row, and then its row is its mnemonic's. -/
def Obligations.LegalWordMatchesOneRow : Prop :=
  ∀ w : Word64,
    ((∃ i, decode w = .ok i) ↔ ∃! r, r ∈ cmdRows ∧ r.accepts w = true) ∧
    ∀ i r, decode w = .ok i → r ∈ cmdRows → r.accepts w = true → r.mnemonic = i.mnemonic

/-- R123: the encoding examples. -/
def Obligations.SpecWordsDecode : Prop :=
  decode 0x0000000000003C01 = .ok (.noteOn 60) ∧ decode 0x0000000000003C02 = .ok (.noteOff 60) ∧
  decode 0x0000000000000003 = .ok .next ∧ decode 0x0000000000000004 = .ok .stop ∧
  decode 0x0000000000007F07 = .ok (.setBeta 127) ∧
  (∀ i, decode 0x0000000000000103 ≠ .ok i) ∧ (∀ i, decode 0x0000000000000013 ≠ .ok i)

/-! ### Steps (R20, R240) -/

/-- R240: when BUSY = 1, a command is pending that decodes, and it is the CORE's turn, a step runs
that command and then clears PENDING and BUSY. -/
def Obligations.StepRunsPendingCommand : Prop :=
  ∀ (s : State) (rest : List Event) (w : Word64) (i : Instr),
    CoreNext s rest → s.busy = true → s.pending = some w → decode w = .ok i →
    step s =
      match exec i { s with agenda := rest } with
      | .next t => .next { t with pending := none, busy := false }
      | .fault f => .fault f
      | .refused r => .refused r

/-- A placed word is what the next step runs: in every state, the next step of
`s.withFetchWord 64 w` runs the command w decodes to, on the state a CMD write leaves. -/
def Obligations.FetchedWordRuns : Prop :=
  ∀ (s : State) (w : Word64) (i : Instr), decode w = .ok i →
    step (s.withFetchWord 64 w.toNat) =
      match exec i { s with cmdLast := w, pending := some w, busy := true } with
      | .next t => .next { t with pending := none, busy := false }
      | .fault f => .fault f
      | .refused r => .refused r

/-- R106, R240, R285: which words do not decode, and that such a word completes by ILLEGAL_CMD with
its NOTE and OP fields and no other effect (no fault having been recorded before). -/
def Obligations.IllegalWordFaults : Prop :=
  (∀ w : Word64, IllegalWord w ↔ ∀ i, decode w ≠ .ok i) ∧
  ∀ (s : State) (rest : List Event) (w : Word64),
    CoreNext s rest → s.busy = true → s.pending = some w → s.faultCode = .none → IllegalWord w →
    step s = .next { firstFault s .illegalCmd (w.extractLsb' 8 8) (w.extractLsb' 0 4) 0 with
      agenda := rest, pending := none, busy := false }

/-- R240, R286: from a command in flight BUSY clears within a bounded number of steps, whatever
events the host still has; and unless one of them is a reset, which discards the command (R320),
the run reaches the CORE's turn with the command still pending, whose completion
StepRunsPendingCommand and IllegalWordFaults state. The bounds are the model's agenda (log 6). -/
def Obligations.IssuedCommandCompletes : Prop :=
  ∀ (s : State) (w : Word64), s.busy = true → s.pending = some w →
    (∃ k, k ≤ s.agenda.length + 2 ∧
      ∃ t, core.run k s = .next t ∧ t.busy = false ∧ t.pending = none) ∧
    (Event.reset ∉ s.agenda →
      ∃ k rest u, k ≤ s.agenda.length + 1 ∧ core.run k s = .next u ∧ CoreNext u rest ∧
        u.busy = true ∧ u.pending = some w)

/-- R70, R78, R80, R121, R240, R315, R320 as the model's agenda orders them (log 6): what a step
does with each event. The CORE's turn completes a pending command, faults by name where none is
pending with BUSY = 1 (log 14), and changes nothing with BUSY = 0 (log 17). A host access at
BASE + off reaches the window at off; one outside the window changes nothing of the core, and a
read there answers a free value (log 12). WAIT polls STATUS until BUSY = 0 (log 7). What
platformReset leaves, PlatformResetAnyTime says. -/
def Obligations.StepTakesFirstEvent : Prop :=
  (∀ s rest, CoreNext s rest → s.busy = false → step s = .next { s with agenda := rest }) ∧
  (∀ s rest, CoreNext s rest → s.busy = true → s.pending = none →
    step s = .fault .busyWithoutPending) ∧
  (∀ s rest w i t, CoreNext s rest → s.busy = true → s.pending = some w → decode w = .ok i →
    exec i { s with agenda := rest } = .next t →
    step s = .next { t with pending := none, busy := false }) ∧
  (∀ s rest w, CoreNext s rest → s.busy = true → s.pending = some w → IllegalWord w →
    step s = .next (illegalCompleted { s with agenda := rest } w)) ∧
  (∀ (s : State) (off : BitVec 16) width rest,
    s.agenda = .read (s.params.base + off.toNat) width :: rest →
    step s = .next (hostRead { s with agenda := rest } off width)) ∧
  (∀ (s : State) (off : BitVec 16) width v rest,
    s.agenda = .write (s.params.base + off.toNat) width v :: rest →
    step s = .next (hostWrite { s with agenda := rest } off width v)) ∧
  (∀ (s : State) addr width rest, s.agenda = .read addr width :: rest →
    (addr < s.params.base ∨ s.params.base + 2 ^ 16 ≤ addr) →
    step s = .next (freeAnswer { s with agenda := rest })) ∧
  (∀ (s : State) addr width v rest, s.agenda = .write addr width v :: rest →
    (addr < s.params.base ∨ s.params.base + 2 ^ 16 ≤ addr) →
    step s = .next { s with agenda := rest }) ∧
  (∀ s rest, s.agenda = .wait :: rest → s.busy = false →
    step s = .next { hostRead s 0x008 8 with agenda := rest }) ∧
  (∀ s rest, s.agenda = .wait :: rest → s.busy = true →
    step s = .next { hostRead s 0x008 8 with agenda := .core :: .wait :: rest }) ∧
  (∀ s rest, s.agenda = .reset :: rest →
    step s = .next ({ s with agenda := rest } : State).platformReset)

/-! ### NOTE_ON (R249–R251, R284, R290) -/

/-- R250, R190, R210: an accepted NOTE_ON of a note without a live voice installs exactly the new
voice, sets MAPPED, leaves TAIL and TAIL_VALID, and changes nothing else. -/
def Obligations.NoteOnStartsVoice : Prop :=
  ∀ (s : State) (n : Nat) (a1 a2 r1 : Int),
    s.params.Legal → NoteOnAccepts s n a1 a2 r1 →
    ¬((s.slot n).mapped = true ∧ (s.slot n).voice.state = .on) →
    exec (.noteOn n) s = .next { s with
      slots := s.slots.set n { s.slot n with mapped := true, voice := newVoice s n a1 a2 r1 } }

/-- R250, R251: an accepted NOTE_ON of a live voice stores the tail (the fade times one more block
of the old voice), sets TAIL_VALID, installs the new voice, and changes nothing else. -/
def Obligations.NoteOnCrossfadesLiveVoice : Prop :=
  ∀ (s : State) (n : Nat) (a1 a2 r1 : Int),
    s.params.Legal → NoteOnAccepts s n a1 a2 r1 →
    (s.slot n).mapped = true → (s.slot n).voice.state = .on →
    exec (.noteOn n) s = .next { s with
      slots := s.slots.set n
        { mapped := true
          tailValid := true
          tail := List.zipWith mul64
            ((List.range s.params.bs).map (fadeSample s.params (s.slot n).voice.adsr.last))
            (voiceStep s.params (s.slot n).voice).2
          voice := newVoice s n a1 a2 r1 } }

/-- R250, R281, R283, R284: NOTE_ON of a note outside the table records NOTE_RANGE, NOTE and OP,
and changes nothing else. -/
def Obligations.NoteOnOutOfRangeFaults : Prop :=
  ∀ (s : State) (n : Nat), s.params.nNotes ≤ n → s.faultCode = .none →
    exec (.noteOn n) s = .next (firstFault s .noteRange (BitVec.ofNat 8 n) 1 0)

/-- R284, R285, R290: a NOTE_ON that is not accepted records the first failing check in R290's
order, unless a fault is recorded already, and changes nothing else. -/
def Obligations.NoteOnReportsFirstFailure : Prop :=
  ∀ (s : State) (n : Nat), s.params.Legal → noteOnFirstFailure s n ≠ .none →
    exec (.noteOn n) s = .next
      (if s.faultCode = .none then
        firstFault s (noteOnFirstFailure s n) (BitVec.ofNat 8 n) 1 0
      else { s with halted := true })

/-! ### NOTE_OFF (R255) -/

/-- R255: NOTE_OFF of a live voice puts its ADSR in releasing with the release cursor at 0, active
or already releasing, and changes nothing else; of an unknown note, an unmapped slot or an off
voice it changes nothing at all. -/
def Obligations.NoteOffReleasesLiveVoice : Prop :=
  ∀ (s : State) (n : Nat),
    exec (.noteOff n) s = .next
      (if n < s.params.nNotes ∧ (s.slot n).mapped = true ∧ (s.slot n).voice.state = .on then
        { s with
          slots := s.slots.set n { s.slot n with
            voice := { (s.slot n).voice with
              adsr := { (s.slot n).voice.adsr with
                state := .releasing
                rel := { (s.slot n).voice.adsr.rel with cursor := 0 } } } } }
      else s)

/-! ### NEXT and STOP (R257–R260) -/

/-- R257, R258: NEXT leaves in OUT the contributions of the live slots summed from zeros in
MIX_ORDER, leaves each slot as that slot alone decides, and changes nothing else. -/
def Obligations.NextMixesEverySlot : Prop :=
  ∀ s : State, s.params.Legal → s.slots.length = s.params.nNotes →
    exec .next s = .next { s with
      out := mixedBlock s
      slots := s.slots.map (slotAfterNext s.params) }

/-- R257: with no slot mapped NEXT outputs +0.0 throughout and changes nothing else. -/
def Obligations.NextSilentWhenNothingMapped : Prop :=
  ∀ s : State, (∀ sl ∈ s.slots, sl.mapped = false) →
    exec .next s = .next { s with out := List.replicate s.params.bs .posZero }

/-- R303: no OUT sample is ever −0.0 after NEXT. -/
def Obligations.NextNeverOutputsNegativeZero : Prop :=
  ∀ s : State, ∃ t, exec .next s = .next t ∧ ∀ x ∈ t.out, x ≠ F64.negZero

/-- R260: STOP clears MAPPED and TAIL_VALID of every slot and changes nothing else, OUT, the CFG
registers, ARG and the fault record included; a NEXT right after it outputs +0.0 throughout. -/
def Obligations.StopDiscardsEverything : Prop :=
  ∀ s : State, ∃ t, exec .stop s = .next t ∧
    t = { s with slots := s.slots.map fun sl => { sl with mapped := false, tailValid := false } } ∧
    exec .next t = .next { t with out := List.replicate s.params.bs .posZero }

/-! ### SET_AMP, SET_FM, SET_BETA (R262–R264) -/

/-- R262: SET_AMP writes FM.amp of a mapped slot, on or off, and changes nothing else; for
n ≥ N_NOTES or an unmapped slot it changes nothing at all. -/
def Obligations.SetAmpWritesCarrierAmplitude : Prop :=
  ∀ (s : State) (n : Nat),
    (n < s.params.nNotes ∧ (s.slot n).mapped = true → exec (.setAmp n) s = .next { s with
        slots := s.slots.set n { s.slot n with
          voice := { (s.slot n).voice with fm := { (s.slot n).voice.fm with amp := s.arg } } } }) ∧
    (¬(n < s.params.nNotes ∧ (s.slot n).mapped = true) → exec (.setAmp n) s = .next s)

/-- R263: SET_FM writes FM.MOD.freq of a mapped slot, on or off, whatever FM_ABS is, and changes
nothing else: no counter moves; for n ≥ N_NOTES or an unmapped slot it changes nothing at all. -/
def Obligations.SetFmWritesModulatorFrequency : Prop :=
  ∀ (s : State) (n : Nat),
    (n < s.params.nNotes ∧ (s.slot n).mapped = true → exec (.setFm n) s = .next { s with
        slots := s.slots.set n { s.slot n with
          voice := { (s.slot n).voice with
            fm := { (s.slot n).voice.fm with
              mod := { (s.slot n).voice.fm.mod with freq := s.arg } } } } }) ∧
    (¬(n < s.params.nNotes ∧ (s.slot n).mapped = true) → exec (.setFm n) s = .next s)

/-- R264: SET_BETA writes FM.MOD.amp of a mapped slot, on or off, and changes nothing else; for
n ≥ N_NOTES or an unmapped slot it changes nothing at all. -/
def Obligations.SetBetaWritesModulationIndex : Prop :=
  ∀ (s : State) (n : Nat),
    (n < s.params.nNotes ∧ (s.slot n).mapped = true → exec (.setBeta n) s = .next { s with
        slots := s.slots.set n { s.slot n with
          voice := { (s.slot n).voice with
            fm := { (s.slot n).voice.fm with
              mod := { (s.slot n).voice.fm.mod with amp := s.arg } } } } }) ∧
    (¬(n < s.params.nNotes ∧ (s.slot n).mapped = true) → exec (.setBeta n) s = .next s)

/-! ### Frames over all commands -/

/-- R32, R47, R48, R282, R284: what no command changes: the parameters, the host registers,
CMD_LAST, PENDING and BUSY; only NEXT writes OUT; only NOTE_ON touches the fault record. -/
def Obligations.CommandsFrame : Prop :=
  ∀ (i : Instr) (s : State), ∃ t, exec i s = .next t ∧
    t.params = s.params ∧ t.cmdLast = s.cmdLast ∧ t.cfgAmp = s.cfgAmp ∧ t.cfgFm = s.cfgFm ∧
    t.cfgBeta = s.cfgBeta ∧ t.cfgAttack = s.cfgAttack ∧ t.cfgDecay = s.cfgDecay ∧
    t.cfgSustain = s.cfgSustain ∧ t.cfgRelease = s.cfgRelease ∧ t.cfgFlags = s.cfgFlags ∧
    t.arg = s.arg ∧ t.busy = s.busy ∧ t.pending = s.pending ∧ t.agenda = s.agenda ∧
    t.rdata = s.rdata ∧ t.freeCtr = s.freeCtr ∧ t.slots.length = s.slots.length ∧
    (i ≠ .next → t.out = s.out) ∧
    ((∀ n, i ≠ .noteOn n) → t.halted = s.halted ∧ t.faultCode = s.faultCode ∧
      t.faultNote = s.faultNote ∧ t.faultOp = s.faultOp ∧ t.faultOff = s.faultOff)

/-- R250–R264: a command with a note operand n touches no slot but slot n. -/
def Obligations.CommandsTouchOwnSlotOnly : Prop :=
  ∀ (i : Instr) (s : State) (k : Nat), i ≠ .next → i ≠ .stop → k ≠ i.note →
    ∃ t, exec i s = .next t ∧ t.slot k = s.slot k

/-- R42, R71, R335: only NOTE_ON writes the envelope memory: any other command leaves the buffer,
the length and the last value of every envelope of every slot. -/
def Obligations.OnlyNoteOnWritesEnvelopes : Prop :=
  ∀ (i : Instr) (s : State), (∀ n, i ≠ .noteOn n) → ∃ t, exec i s = .next t ∧
    ∀ k, (t.slot k).voice.adsr.ad.points = (s.slot k).voice.adsr.ad.points ∧
      (t.slot k).voice.adsr.ad.len = (s.slot k).voice.adsr.ad.len ∧
      (t.slot k).voice.adsr.ad.last = (s.slot k).voice.adsr.ad.last ∧
      (t.slot k).voice.adsr.rel.points = (s.slot k).voice.adsr.rel.points ∧
      (t.slot k).voice.adsr.rel.len = (s.slot k).voice.adsr.rel.len ∧
      (t.slot k).voice.adsr.rel.last = (s.slot k).voice.adsr.rel.last

/-! ### Host accesses (20_memory.md) -/

/-- R72, R285: an access of another width, or at an offset that is not a multiple of 8, records
BAD_ACCESS with the offset and has no other effect; where a fault is recorded already the record
stays, and a write while HALTED = 1 changes nothing. The refused read answers a free value
(log 9). -/
def Obligations.MalformedAccessFaults : Prop :=
  ∀ (s : State) (off : BitVec 16) (width : Nat) (v : Word64),
    (width ≠ 8 ∨ off.toNat % 8 ≠ 0) →
    (s.halted = false → hostWrite s off width v = refusedAccess s .badAccess off) ∧
    (s.halted = true → hostWrite s off width v = s) ∧
    hostRead s off width = freeAnswer (refusedAccess s .badAccess off) ∧
    (s.halted = true → s.faultCode ≠ .none → hostRead s off width = freeAnswer s)

/-- R73, R285: a 64-bit host write in every state, check by check and register by register. That a
command in flight completes all the same, IssuedCommandCompletes and HostFaultKeepsCommandInFlight
say. -/
def Obligations.HostWriteRule : Prop :=
  ∀ (s : State) (off : BitVec 16) (v : Word64),
    hostWrite s off 8 v =
      (if s.halted = true then s
      else if off.toNat ∉ writableOffsets then refusedAccess s .badAccess off
      else if s.busy = true then refusedAccess s .busyViolation off
      else if off = 0x000 then { s with cmdLast := v, pending := some v, busy := true }
      else if off = 0x048 then { s with cfgFlags := (v.extractLsb' 0 1).zeroExtend 64 }
      else if off = 0x010 then { s with cfgAmp := .ofBits v }
      else if off = 0x018 then { s with cfgFm := .ofBits v }
      else if off = 0x020 then { s with cfgBeta := .ofBits v }
      else if off = 0x028 then { s with cfgAttack := .ofBits v }
      else if off = 0x030 then { s with cfgDecay := .ofBits v }
      else if off = 0x038 then { s with cfgSustain := .ofBits v }
      else if off = 0x040 then { s with cfgRelease := .ofBits v }
      else { s with arg := .ofBits v })

/-- R76: while HALTED = 1 a host write, of any width at any offset, changes nothing. -/
def Obligations.HaltedWriteIgnored : Prop :=
  ∀ (s : State) (off : BitVec 16) (width : Nat) (v : Word64), s.halted = true →
    hostWrite s off width v = s

/-- R74, R48, R104: a legal 64-bit host read returns its register, HALTED or not, and changes
nothing else; an OUT read while BUSY = 1 returns a free value (R333; log 9). -/
def Obligations.HostReadRule : Prop :=
  ∀ (s : State) (off : BitVec 16),
    (∀ i, i < s.params.bs → off.toNat = 0x100 + 8 * i → s.busy = false →
      hostRead s off 8 = { s with rdata := some (s.out.getD i .posZero).toBits }) ∧
    (inOutWindow s.params off → s.busy = true →
      hostRead s off 8 = { s with
        rdata := some (Config.freeRead s.freeCtr), freeCtr := s.freeCtr + 1 }) ∧
    (off = 0x000 → hostRead s off 8 = { s with rdata := some s.cmdLast }) ∧
    (off = 0x008 → hostRead s off 8 = { s with rdata := some s.statusWord }) ∧
    (off = 0x010 → hostRead s off 8 = { s with rdata := some s.cfgAmp.toBits }) ∧
    (off = 0x018 → hostRead s off 8 = { s with rdata := some s.cfgFm.toBits }) ∧
    (off = 0x020 → hostRead s off 8 = { s with rdata := some s.cfgBeta.toBits }) ∧
    (off = 0x028 → hostRead s off 8 = { s with rdata := some s.cfgAttack.toBits }) ∧
    (off = 0x030 → hostRead s off 8 = { s with rdata := some s.cfgDecay.toBits }) ∧
    (off = 0x038 → hostRead s off 8 = { s with rdata := some s.cfgSustain.toBits }) ∧
    (off = 0x040 → hostRead s off 8 = { s with rdata := some s.cfgRelease.toBits }) ∧
    (off = 0x048 → hostRead s off 8 = { s with rdata := some s.cfgFlags }) ∧
    (off = 0x050 → hostRead s off 8 = { s with rdata := some s.arg.toBits }) ∧
    (off = 0x058 → hostRead s off 8 = { s with
      rdata := some (BitVec.ofNat 64 (2 ^ 32 * (s.params.sr % 2 ^ 32) + s.params.bs % 2 ^ 32)) }) ∧
    (off = 0x060 → (∀ m, s.params.envMax = some m → m < 2 ^ 32) → hostRead s off 8 = { s with
      rdata := some (BitVec.ofNat 64
        (2 ^ 32 * (s.params.envMax.getD 0) + s.params.nNotes % 2 ^ 32)) })

/-- R74, R104, R281, R285: a 64-bit read at an offset that is not readable records BAD_ACCESS and
changes nothing else; where a fault is recorded already, nothing of the core changes. It answers a
free value (log 9). -/
def Obligations.UnreadableOffsetFaults : Prop :=
  ∀ (s : State) (off : BitVec 16), ¬readableOffset s.params off →
    hostRead s off 8 = freeAnswer (refusedAccess s .badAccess off) ∧
    (s.halted = true → s.faultCode ≠ .none → hostRead s off 8 = freeAnswer s)

/-- R32, R73, R74, R75: a binary64 operand register read back returns the last value written, bit
for bit. -/
def Obligations.OperandRegisterReadsBack : Prop :=
  ∀ (s : State) (off : BitVec 16) (v : Word64), s.halted = false → s.busy = false →
    off.toNat ∈ writableOffsets → off ≠ 0x000 → off ≠ 0x048 →
    (hostRead (hostWrite s off 8 v) off 8).rdata = some v

/-- R51: the host cannot read any slot field: a read answers the same whatever the slots hold, and
leaves them alone. -/
def Obligations.HostReadsHideSlots : Prop :=
  ∀ (s : State) (slots : List Slot) (off : BitVec 16) (width : Nat),
    hostRead { s with slots := slots } off width = { hostRead s off width with slots := slots } ∧
    (hostRead s off width).slots = s.slots

/-- R35, R281: the fields of STATUS, its reserved bits 0, and the number of every fault code. -/
def Obligations.StatusFields : Prop :=
  ∀ s : State,
    s.statusWord.getLsbD 0 = s.busy ∧ s.statusWord.getLsbD 1 = s.halted ∧
    s.statusWord.extractLsb' 2 6 = 0 ∧
    (s.faultCode = .none → s.statusWord.extractLsb' 8 8 = 0x00) ∧
    (s.faultCode = .illegalCmd → s.statusWord.extractLsb' 8 8 = 0x01) ∧
    (s.faultCode = .noteRange → s.statusWord.extractLsb' 8 8 = 0x02) ∧
    (s.faultCode = .configError → s.statusWord.extractLsb' 8 8 = 0x03) ∧
    (s.faultCode = .configValue → s.statusWord.extractLsb' 8 8 = 0x04) ∧
    (s.faultCode = .configOrder → s.statusWord.extractLsb' 8 8 = 0x05) ∧
    (s.faultCode = .envTooLong → s.statusWord.extractLsb' 8 8 = 0x06) ∧
    (s.faultCode = .busyViolation → s.statusWord.extractLsb' 8 8 = 0x07) ∧
    (s.faultCode = .badAccess → s.statusWord.extractLsb' 8 8 = 0x08) ∧
    s.statusWord.extractLsb' 16 8 = s.faultNote ∧ s.statusWord.extractLsb' 24 4 = s.faultOp ∧
    s.statusWord.extractLsb' 28 4 = 0 ∧ s.statusWord.extractLsb' 32 16 = s.faultOff ∧
    s.statusWord.extractLsb' 48 16 = 0

/-! ### Faults and reset (60_exceptions.md, 70_reset_and_hazards.md) -/

/-- R286: a host write that faults BUSY_VIOLATION does not cancel the command in flight: the next
turn of the CORE still runs it, and keeps the host's fault record even where the command faults. -/
def Obligations.HostFaultKeepsCommandInFlight : Prop :=
  ∀ (s : State) (addr : Nat) (v w : Word64) (i : Instr) (rest : List Event),
    s.agenda = .write addr 8 v :: .core :: rest →
    s.params.base ≤ addr → addr - s.params.base ∈ writableOffsets →
    s.halted = false → s.faultCode = .none → s.busy = true → s.pending = some w →
    decode w = .ok i →
    ∃ h t, step s = .next h ∧
      h = { firstFault s .busyViolation 0 0 (BitVec.ofNat 16 (addr - s.params.base)) with
        agenda := .core :: rest } ∧
      exec i { h with agenda := rest } = .next t ∧
      step h = .next { t with pending := none, busy := false } ∧
      t.halted = true ∧ t.faultCode = .busyViolation ∧ t.faultNote = 0 ∧ t.faultOp = 0 ∧
      t.faultOff = BitVec.ofNat 16 (addr - s.params.base)

/-- R307, R285: once a fault is recorded and HALTED is set, no step but reset leaves HALTED, and
no later fault is recorded; reset clears both. -/
def Obligations.OnlyResetLeavesHalted : Prop :=
  ∀ s t : State, s.halted = true → s.faultCode ≠ .none → step s = .next t →
    ((∀ rest, s.agenda ≠ .reset :: rest) →
      t.halted = true ∧ t.faultCode = s.faultCode ∧ t.faultNote = s.faultNote ∧
      t.faultOp = s.faultOp ∧ t.faultOff = s.faultOff) ∧
    (∀ rest, s.agenda = .reset :: rest →
      t.halted = false ∧ t.faultCode = .none ∧ t.faultNote = 0 ∧ t.faultOp = 0 ∧ t.faultOff = 0)

/-- R287, R285: while HALTED = 1 and no command is in flight no step changes a parameter, HALTED, a
host register, OUT or a slot, nor, once a fault is recorded, the fault record; reset apart. -/
def Obligations.HaltedIdleCoreIsFrozen : Prop :=
  ∀ s : State, s.halted = true → s.busy = false → (∀ rest, s.agenda ≠ .reset :: rest) →
    ∃ t, step s = .next t ∧ t.params = s.params ∧ t.halted = true ∧ t.busy = false ∧
      t.pending = s.pending ∧ t.cmdLast = s.cmdLast ∧
      t.cfgAmp = s.cfgAmp ∧ t.cfgFm = s.cfgFm ∧ t.cfgBeta = s.cfgBeta ∧
      t.cfgAttack = s.cfgAttack ∧ t.cfgDecay = s.cfgDecay ∧ t.cfgSustain = s.cfgSustain ∧
      t.cfgRelease = s.cfgRelease ∧ t.cfgFlags = s.cfgFlags ∧ t.arg = s.arg ∧ t.out = s.out ∧
      t.slots = s.slots ∧
      (s.faultCode ≠ .none → t.faultCode = s.faultCode ∧ t.faultNote = s.faultNote ∧
        t.faultOp = s.faultOp ∧ t.faultOff = s.faultOff)

/-- R50: the value of every piece of state after reset (TAIL and VOICE are left open there). -/
def Obligations.ResetValues : Prop :=
  State.reset.cmdLast = 0 ∧ State.reset.pending = none ∧
  State.reset.cfgAmp.toBits = 0 ∧ State.reset.cfgFm.toBits = 0 ∧ State.reset.cfgBeta.toBits = 0 ∧
  State.reset.cfgAttack.toBits = 0 ∧ State.reset.cfgDecay.toBits = 0 ∧
  State.reset.cfgSustain.toBits = 0 ∧ State.reset.cfgRelease.toBits = 0 ∧
  State.reset.arg.toBits = 0 ∧ State.reset.cfgFlags = 0 ∧
  State.reset.busy = false ∧ State.reset.halted = false ∧ State.reset.faultCode = .none ∧
  State.reset.faultNote = 0 ∧ State.reset.faultOp = 0 ∧ State.reset.faultOff = 0 ∧
  State.reset.out.length = State.reset.params.bs ∧
  (∀ x ∈ State.reset.out, x = F64.posZero) ∧
  State.reset.slots.length = State.reset.params.nNotes ∧
  (∀ sl ∈ State.reset.slots, sl.mapped = false ∧ sl.tailValid = false)

/-- R320, R48: the platform's reset, at any time, sets every piece of state to its R50 value,
discards a pending command, and keeps the parameters. -/
def Obligations.PlatformResetAnyTime : Prop :=
  ∀ (s : State) (rest : List Event), s.agenda = .reset :: rest →
    ∃ t, step s = .next t ∧ t.params = s.params ∧ t.cmdLast = 0 ∧ t.pending = none ∧
      t.cfgAmp.toBits = 0 ∧ t.cfgFm.toBits = 0 ∧ t.cfgBeta.toBits = 0 ∧ t.cfgAttack.toBits = 0 ∧
      t.cfgDecay.toBits = 0 ∧ t.cfgSustain.toBits = 0 ∧ t.cfgRelease.toBits = 0 ∧
      t.arg.toBits = 0 ∧ t.cfgFlags = 0 ∧ t.statusWord = 0 ∧
      t.out = List.replicate s.params.bs .posZero ∧ t.slots.length = s.params.nNotes ∧
      ∀ sl ∈ t.slots, sl.mapped = false ∧ sl.tailValid = false

/-- The invariant of Safety.lean (R43–R45, R285 and the rest) holds after reset. -/
def Obligations.ResetMeetsInvariant : Prop := State.reset.Inv

/-- R43, R44, R45, R148, R172, R285, R303, R33: every step keeps the invariant, from every state
that meets it. -/
def Obligations.StepKeepsInvariant : Prop :=
  ∀ s t : State, s.Inv → step s = .next t → t.Inv

/-- From every state that meets the invariant the machine takes a step: it never stops. -/
def Obligations.GoodStatesNeverStop : Prop :=
  ∀ s : State, s.Inv → ∃ t, step s = .next t

/-! ### Envelope (41_envelope.md) -/

/-- R164, R165, R167, R304: the buffer filled segment by segment and padded has length L, is the
buffer the model computes sample by sample, holds R165's formula on each segment (none where the
segment is empty) and the final value on the padding. -/
def Obligations.BufferFilledEqualsOnDemand : Prop :=
  ∀ (P : Params) (pts : List Breakpoint) (final : Breakpoint), 1 ≤ P.bs → 2 ≤ pts.length →
    firstFrame pts = 0 → framesOrdered pts = true → pts.getLast? = some final →
    (bufFill P pts).length = paddedLen P final.frame ∧
    (∀ j, j < paddedLen P final.frame → (bufFill P pts)[j]? = some (sampleAt pts j)) ∧
    (∀ before p q after, pts = before ++ p :: q :: after →
      ∀ j : Nat, (j : Int) < q.frame - p.frame →
        (bufFill P pts)[p.frame.toNat + j]? = some (add64
          (mul64 (i2f j) (div64 (sub64 q.value p.value) (i2f (q.frame - p.frame).toNat)))
          p.value)) ∧
    (∀ j, final.frame.toNat ≤ j → j < paddedLen P final.frame →
      (bufFill P pts)[j]? = some final.value)

/-- R172: every envelope env_build returns has L mod BS = 0 and L ≥ S. -/
def Obligations.EnvelopeLengthProperty : Prop :=
  ∀ (P : Params) (pts : List Breakpoint) (stored : Bool) (e : Envelope), 1 ≤ P.bs →
    envBuild P pts stored = .ok e →
    e.len % P.bs = 0 ∧ ((pts.getLast?.map Breakpoint.frame).getD 0).toNat ≤ e.len

/-- R173: at an internal breakpoint whose following segment is not empty and whose step is finite,
the buffer holds the breakpoint's value exactly, unless that value is −0. -/
def Obligations.EnvelopeJoinExact : Prop :=
  ∀ (before : List Breakpoint) (p q : Breakpoint) (after : List Breakpoint),
    before ≠ [] → firstFrame (before ++ p :: q :: after) = 0 →
    framesOrdered (before ++ p :: q :: after) = true → p.frame < q.frame →
    (segStep p q).isFinite = true → p.value ≠ F64.negZero →
    sampleAt (before ++ p :: q :: after) p.frame.toNat = p.value

/-- R169: an envelope step returns the next BS samples and advances the cursor by BS, or holds the
last value and leaves the cursor. -/
def Obligations.EnvelopePlayback : Prop :=
  ∀ (P : Params) (e : Envelope),
    (e.cursor < e.len → ∃ v, envStep P e = ({ e with cursor := e.cursor + P.bs }, .full v) ∧
      v.length = P.bs ∧ ∀ i, i < P.bs → v[i]? = some (e.sample (e.cursor + i))) ∧
    (e.len ≤ e.cursor → envStep P e = (e, .hold e.last))

/-! ### ADSR (42_adsr.md) -/

/-- R171, R193, R194, R195: the values and the last sample of a block, and the ADSR step in each
state. -/
def Obligations.AdsrStepByState : Prop :=
  (∀ (P : Params) (v : List F64) (x : F64), v.length = P.bs → v[P.bs - 1]? = some x →
    (Block.full v).vals P = v ∧ (Block.full v).lastSample P = x) ∧
  (∀ (P : Params) (x : F64),
    (Block.hold x).vals P = List.replicate P.bs x ∧ (Block.hold x).lastSample P = x) ∧
  ∀ (P : Params) (a : Adsr),
    (a.state = .idle → adsrStep P a =
      ({ a with last := .posZero }, .full (List.replicate P.bs .posZero))) ∧
    (a.state = .active → adsrStep P a =
      ({ a with ad := (envStep P a.ad).1, last := (envStep P a.ad).2.lastSample P },
        (envStep P a.ad).2)) ∧
    (a.state = .releasing → ∀ l, (envStep P a.rel).2.lastSample P = l → adsrStep P a =
      ({ a with
          rel := (envStep P a.rel).1
          last := l
          state := if l = F64.posZero ∨ l = F64.negZero then .idle else .releasing },
        (envStep P a.rel).2))

/-- R197: after adsr_release, within L_REL / BS + 1 steps the state is idle; it is releasing
before, and the step that makes the transition returns a block whose last sample is 0. -/
def Obligations.AdsrReleaseTerminates : Prop :=
  ∀ (P : Params) (a : Adsr), 1 ≤ P.bs → a.rel.len % P.bs = 0 → a.rel.last = .posZero →
    ∃ k, k < a.rel.len / P.bs + 1 ∧
      (∀ j, j ≤ k → ((fun x => (adsrStep P x).1)^[j] (adsrRelease a)).state = .releasing) ∧
      ((fun x => (adsrStep P x).1)^[k + 1] (adsrRelease a)).state = .idle ∧
      eq64 ((adsrStep P ((fun x => (adsrStep P x).1)^[k] (adsrRelease a))).2.lastSample P)
        .posZero = true

/-! ### Oscillator and voice (40_oscillator.md, 43_voice.md) -/

/-- R141, R142, R143: the block of an oscillator, sample by sample, and its counter modulo 2^64. -/
def Obligations.OscillatorBlock : Prop :=
  twoPi.toBits = 0x401921FB54442D18 ∧
  ∀ (P : Params) (o : Osc),
    (oscStep P o).1 = { o with t := BitVec.ofNat 64 (o.t.toNat + P.bs) } ∧
    (oscStep P o).2.length = P.bs ∧
    ∀ i, i < P.bs → (oscStep P o).2[i]? = some (mul64 o.amp (P.SIN (add64
      (div64 (mul64 (mul64 twoPi o.freq) (i2f ((o.t.toNat + i) % 2 ^ 64))) (i2f P.sr)) o.phase)))

/-- R147, R148: the block of an FM oscillator: the modulator's block is the carrier's phase
offset; both counters advance by BS and nothing else changes. -/
def Obligations.FmOscillatorBlock : Prop :=
  ∀ (P : Params) (f : FmOsc),
    (fmStep P f).1 = { f with
      t := BitVec.ofNat 64 (f.t.toNat + P.bs)
      mod := { f.mod with t := BitVec.ofNat 64 (f.mod.t.toNat + P.bs) } } ∧
    (fmStep P f).2.length = P.bs ∧
    ∀ (i : Nat) (m : F64), i < P.bs → (oscStep P f.mod).2[i]? = some m →
      (fmStep P f).2[i]? = some (mul64 f.amp (P.SIN (add64
        (div64 (mul64 (mul64 twoPi f.fc) (i2f ((f.t.toNat + i) % 2 ^ 64))) (i2f P.sr)) m)))

/-- R211, R212: a voice's block is full and is the FM block times the ADSR block, a hold block
broadcast; the voice is off once the ADSR is idle. -/
def Obligations.VoiceBlock : Prop :=
  ∀ (P : Params) (v : Voice),
    (voiceStep P v).1.fm = (fmStep P v.fm).1 ∧
    (voiceStep P v).1.adsr = (adsrStep P v.adsr).1 ∧
    (voiceStep P v).1.state = (if (adsrStep P v.adsr).1.state = .idle then .off else v.state) ∧
    (voiceStep P v).2.length = P.bs ∧
    (∀ (i : Nat) (f x : F64), (fmStep P v.fm).2[i]? = some f → (adsrStep P v.adsr).2 = .hold x →
      (voiceStep P v).2[i]? = some (mul64 f x)) ∧
    (∀ (i : Nat) (f e : F64) (w : List F64), (fmStep P v.fm).2[i]? = some f → (adsrStep P v.adsr).2 = .full w →
      w[i]? = some e → (voiceStep P v).2[i]? = some (mul64 f e))

/-! ### Arithmetic (R14, R300–R304) -/

/-- R14, R300: each primitive on finite operands is the exact result rounded to nearest, ties to
even, an infinity on overflow and gradual on underflow; the value of an operand is read off its
encoding. That these are IEEE 754's results is presumed (log 19). -/
def Obligations.ArithmeticRoundsToNearestEven : Prop :=
  (∀ a b : F64, a.isFinite = true → b.isFinite = true →
    RoundsTo (valueOf a + valueOf b) (add64 a b) ∧ RoundsTo (valueOf a - valueOf b) (sub64 a b) ∧
    RoundsTo (valueOf a * valueOf b) (mul64 a b) ∧
    (valueOf b ≠ 0 → RoundsTo (valueOf a / valueOf b) (div64 a b))) ∧
  ∀ n : Nat, RoundsTo (n : ℚ) (i2f n)

/-- R14, R161: roundTiesEven gives the integer nearest to a finite value, the even one at a tie. -/
def Obligations.FrameRoundsTiesToEven : Prop :=
  ∀ (x : F64) (z : Int), x.isFinite = true →
    |(roundTiesEven x : ℚ) - valueOf x| ≤ |(z : ℚ) - valueOf x| ∧
    (z ≠ roundTiesEven x → |(z : ℚ) - valueOf x| = |(roundTiesEven x : ℚ) - valueOf x| →
      roundTiesEven x % 2 = 0)

/-- R14, R300: the primitives with an infinite operand, and the division by zero that no rule of
the core makes (R301), as IEEE 754 gives them (log 19). -/
def Obligations.InfinityArithmetic : Prop :=
  ∀ (s t : Bool) (x : F64), x.isFinite = true →
    add64 (.inf s) x = .inf s ∧ add64 x (.inf s) = .inf s ∧ add64 (.inf s) (.inf s) = .inf s ∧
    sub64 (.inf s) x = .inf s ∧ sub64 x (.inf s) = .inf (!s) ∧
    sub64 (.inf s) (.inf (!s)) = .inf s ∧
    mul64 (.inf s) (.inf t) = .inf (s != t) ∧
    div64 (.inf s) x = .inf (s != signBit x) ∧ div64 x (.inf s) = .zero (signBit x != s) ∧
    (valueOf x ≠ 0 →
      mul64 (.inf s) x = .inf (s != signBit x) ∧ mul64 x (.inf s) = .inf (signBit x != s) ∧
      div64 x (.zero t) = .inf (signBit x != t))

/-- R14: IEEE equality: finite values are equal when they stand for the same number, so that the
two zeros are equal; infinities when their signs agree; a finite value equals no infinity; a NaN
equals nothing. -/
def Obligations.EqualityByValue : Prop :=
  (∀ a b : F64, a.isFinite = true → b.isFinite = true →
    (eq64 a b = true ↔ valueOf a = valueOf b)) ∧
  (∀ s t : Bool, eq64 (.inf s) (.inf t) = true ↔ s = t) ∧
  (∀ (s : Bool) (x : F64), x.isFinite = true →
    eq64 (.inf s) x = false ∧ eq64 x (.inf s) = false) ∧
  ∀ a b : F64, (a.isNaN = true ∨ b.isNaN = true) → eq64 a b = false

/-- R301, R302: every primitive with a NaN operand returns a NaN, a NaN equals nothing, and the
invalid operations (a zero times an infinity, a difference of equal infinities; 0 / 0 and ∞ / ∞,
which no rule of the core makes, log 19) return a NaN. Which NaN is free (log 4). -/
def Obligations.NaNPropagates : Prop :=
  (∀ a b : F64, (a.isNaN = true ∨ b.isNaN = true) →
    (add64 a b).isNaN = true ∧ (sub64 a b).isNaN = true ∧ (mul64 a b).isNaN = true ∧
    (div64 a b).isNaN = true ∧ eq64 a b = false) ∧
  ∀ s t : Bool,
    (mul64 (.zero s) (.inf t)).isNaN = true ∧ (mul64 (.inf s) (.zero t)).isNaN = true ∧
    (add64 (.inf s) (.inf (!s))).isNaN = true ∧ (sub64 (.inf s) (.inf s)).isNaN = true ∧
    (div64 (.zero s) (.zero t)).isNaN = true ∧ (div64 (.inf s) (.inf t)).isNaN = true

/-- R303: the signed zeros: sums, exact cancellation, products, equality. -/
def Obligations.SignedZeroRules : Prop :=
  add64 .posZero .negZero = .posZero ∧ add64 .negZero .negZero = .negZero ∧
  (∀ x : F64, x.isFinite = true → x ≠ .posZero → x ≠ .negZero → add64 x x.neg = .posZero) ∧
  (∀ (s : Bool) (x : F64), x.isFinite = true → mul64 (.zero s) x = .zero (s != x.sign) ∧
    mul64 x (.zero s) = .zero (x.sign != s)) ∧
  eq64 .posZero .negZero = true

/-- R304: i2f is exact up to 2^53: the result is the integer, in units of 2^−1074, and
roundTiesEven gives it back. -/
def Obligations.IntegerConversionExact : Prop :=
  ∀ n : Nat, n ≤ 2 ^ 53 →
    (∃ e f, i2f n = .fin false e f ∧ magUnits e f = unitsPerOne * n) ∧
    roundTiesEven (i2f n) = n

/-- R14, R303: adding a zero to a finite value that is not −0 gives that value exactly. -/
def Obligations.AddingZeroIsExact : Prop :=
  ∀ (s : Bool) (x : F64), x.isFinite = true → x ≠ F64.negZero → add64 (.zero s) x = x
end

