-- ==== Sys2Proof/Laws/Float.lean ====
section
/-! SUPPORT. The binary64 encoding and the primitives of R14: what the other proofs use of them. -/

namespace Sys2Proof

/-- R75: the encoding of a decoded register is that register, NaN payloads included. -/
theorem F64.toBits_ofBits (b : Word64) : (F64.ofBits b).toBits = b := by
  have hlt : b.toNat < 2 ^ 64 := b.isLt
  have hm : b.msb.toNat = b.toNat / 2 ^ 63 := by
    rw [BitVec.msb_eq_decide]
    by_cases h : 2 ^ (64 - 1) ≤ b.toNat
    · rw [decide_eq_true h]
      simp only [Bool.toNat_true]
      omega
    · rw [decide_eq_false h]
      simp only [Bool.toNat_false]
      omega
  unfold F64.ofBits
  simp only
  split
  · rename_i he
    unfold F64.toBits
    apply BitVec.eq_of_toNat_eq
    simp only [BitVec.toNat_ofNat, hm]
    omega
  · rename_i he
    split
    · rename_i hf
      unfold F64.toBits
      apply BitVec.eq_of_toNat_eq
      simp only [BitVec.toNat_ofNat, hm]
      omega
    · rename_i hf
      unfold F64.toBits
      apply BitVec.eq_of_toNat_eq
      simp only [BitVec.toNat_ofNat, hm]
      omega

/-- R75: a value is recovered from its encoding. -/
theorem F64.ofBits_toBits (x : F64) : F64.ofBits x.toBits = x := by
  have msb_of (v : Nat) (neg : Bool) (h : v < 2 ^ 63) :
      (BitVec.ofNat 64 (2 ^ 63 * neg.toNat + v)).msb = neg := by
    cases neg <;> simp [BitVec.msb_eq_decide] <;> omega
  cases x with
  | nan neg p =>
    have hp := p.isLt
    have hb : neg.toNat ≤ 1 := by cases neg <;> simp
    have hn : (F64.nan neg p).toBits.toNat = 2047 * 2 ^ 52 + (2 ^ 63 * neg.toNat + (p.val + 1)) := by
      simp only [F64.toBits, BitVec.toNat_ofNat]
      omega
    have hm : (F64.nan neg p).toBits.msb = neg := by
      simp only [F64.toBits]
      rw [show 2047 * 2 ^ 52 + (2 ^ 63 * neg.toNat + (p.val + 1)) = 2 ^ 63 * neg.toNat + (2047 * 2 ^ 52 + (p.val + 1)) by omega]
      exact msb_of _ _ (by omega)
    unfold F64.ofBits
    simp only [hn, hm]
    rw [dif_neg (by omega), dif_pos (by omega)]
    congr 1
    apply Fin.ext
    simp only
    omega
  | inf neg =>
    have hb : neg.toNat ≤ 1 := by cases neg <;> simp
    have hn : (F64.inf neg).toBits.toNat = 2047 * 2 ^ 52 + 2 ^ 63 * neg.toNat := by
      simp only [F64.toBits, BitVec.toNat_ofNat]
      omega
    have hm : (F64.inf neg).toBits.msb = neg := by
      simp only [F64.toBits]
      rw [show 2047 * 2 ^ 52 + 2 ^ 63 * neg.toNat = 2 ^ 63 * neg.toNat + (2047 * 2 ^ 52) by omega]
      exact msb_of _ _ (by omega)
    unfold F64.ofBits
    simp only [hn, hm]
    rw [dif_neg (by omega), dif_neg (by omega)]
  | fin neg e f =>
    have he := e.isLt
    have hf := f.isLt
    have hb : neg.toNat ≤ 1 := by cases neg <;> simp
    have hn : (F64.fin neg e f).toBits.toNat = 2 ^ 52 * e.val + (2 ^ 63 * neg.toNat + f.toNat) := by
      simp only [F64.toBits, BitVec.toNat_ofNat]
      omega
    have hm : (F64.fin neg e f).toBits.msb = neg := by
      simp only [F64.toBits]
      rw [show 2 ^ 52 * e.val + (2 ^ 63 * neg.toNat + f.toNat) = 2 ^ 63 * neg.toNat + (2 ^ 52 * e.val + f.toNat) by omega]
      exact msb_of _ _ (by omega)
    unfold F64.ofBits
    simp only [hn, hm]
    rw [dif_pos (by omega)]
    congr 1
    · apply Fin.ext
      simp only
      omega
    · apply BitVec.eq_of_toNat_eq
      simp only [BitVec.toNat_ofNat]
      omega

@[simp] theorem someNaN_isNaN (op : FOp) (a b : F64) : (someNaN op a b).isNaN = true := rfl

@[simp] theorem someNaN_not_finite (op : FOp) (a b : F64) :
    (someNaN op a b).isFinite = false := rfl

/-- A magnitude is 0 exactly for the zero encoding. -/
theorem magUnits_eq_zero (e : Fin 2047) (f : BitVec 52) :
    magUnits e f = 0 ↔ e = 0 ∧ f = 0 := by
  unfold magUnits
  constructor
  · intro h
    rcases Nat.mul_eq_zero.mp h with h | h
    · exact absurd h (by positivity)
    · by_cases he : e.val = 0
      · rw [if_pos he] at h
        exact ⟨Fin.ext he, BitVec.eq_of_toNat_eq (by simpa using h)⟩
      · rw [if_neg he] at h
        omega
  · rintro ⟨rfl, rfl⟩
    simp

theorem magUnits_zero : magUnits 0 0 = 0 := (magUnits_eq_zero 0 0).mpr ⟨rfl, rfl⟩

@[simp] theorem divRoundEven_zero (d : Nat) : divRoundEven 0 d = 0 := by
  unfold divRoundEven
  by_cases h : 0 < d <;> simp [h]

/-- Rounding moves a quotient up by one at most. -/
theorem divRoundEven_le (n d : Nat) : divRoundEven n d ≤ n / d + 1 := by
  unfold divRoundEven
  simp only
  split
  · omega
  · split <;> omega

/-- Rounding never falls below the quotient. -/
theorem le_divRoundEven (n d : Nat) : n / d ≤ divRoundEven n d := by
  unfold divRoundEven
  simp only
  split
  · omega
  · split <;> omega

/-- Rounding an exact quotient changes nothing. -/
theorem divRoundEven_exact (q d : Nat) (hd : 0 < d) : divRoundEven (q * d) d = q := by
  unfold divRoundEven
  simp [Nat.mul_div_cancel _ hd, hd]

/-- The rounded zero is the zero of the given sign. -/
@[simp] theorem roundUnits_zero (neg : Bool) (d : Nat) : roundUnits neg 0 d = .zero neg := by
  unfold roundUnits
  simp

/-- A quotient below 2^2000 units rounds to a finite value. -/
theorem roundUnits_finite (neg : Bool) (n d N : Nat) (hN : N ≤ 2000) (h : n / d < 2 ^ N) :
    ∃ e f, roundUnits neg n d = .fin neg e f := by
  have hk : Nat.log2 (n / d) < 2001 := by
    by_cases h0 : n / d = 0
    · simp [h0]
    · exact lt_of_lt_of_le ((Nat.log2_lt h0).mpr h) (by omega)
  have hq : n / (d * 2 ^ (Nat.log2 (n / d) - 52)) < 2 ^ 53 := by
    rw [← Nat.div_div_eq_div_mul]
    rw [Nat.div_lt_iff_lt_mul (by positivity), ← pow_add]
    calc n / d < 2 ^ (Nat.log2 (n / d) + 1) := Nat.lt_log2_self
      _ ≤ _ := Nat.pow_le_pow_right (by norm_num) (by omega)
  have hr := divRoundEven_le n (d * 2 ^ (Nat.log2 (n / d) - 52))
  unfold roundUnits
  simp only
  rw [dif_pos (by omega)]
  exact ⟨_, _, rfl⟩

/-- Every count below 2^64 converts to a finite value (R304). -/
theorem i2f_finite (n : Nat) (h : n < 2 ^ 64) : ∃ e f, i2f n = .fin false e f := by
  have hb : unitsPerOne * n / 1 < 2 ^ (64 + 1074) := by
    rw [Nat.div_one, pow_add, Nat.mul_comm]
    unfold unitsPerOne
    exact Nat.mul_lt_mul_of_pos_right h (by positivity)
  exact roundUnits_finite false (unitsPerOne * n) 1 (64 + 1074) (by norm_num) hb

@[simp] theorem i2f_zero : i2f 0 = .posZero := by
  unfold i2f
  simp

/-- +0.0 times a finite value is a zero of that value's sign. -/
theorem mul64_posZero_fin (s : Bool) (e : Fin 2047) (f : BitVec 52) :
    mul64 .posZero (.fin s e f) = .zero s := by
  show roundUnits (false != s) (magUnits 0 0 * magUnits e f) unitsPerOne = .zero s
  rw [magUnits_zero, Nat.zero_mul, roundUnits_zero, Bool.false_bne]

@[simp] theorem roundTiesEven_zero (s : Bool) : roundTiesEven (.zero s) = 0 := by
  show (if s then -((divRoundEven (magUnits 0 0) unitsPerOne : Nat) : Int)
    else ((divRoundEven (magUnits 0 0) unitsPerOne : Nat) : Int)) = 0
  rw [magUnits_zero, divRoundEven_zero]
  cases s <;> rfl

/-- A non-zero whole number of units never rounds to a zero. -/
theorem roundUnits_one_ne_zero (neg s : Bool) (n : Nat) (h : 0 < n) :
    roundUnits neg n 1 ≠ .zero s := by
  unfold roundUnits
  simp only [Nat.div_one, Nat.one_mul]
  split
  · rename_i hlt
    intro heq
    simp only [F64.fin.injEq] at heq
    obtain ⟨-, he, hf⟩ := heq
    have he := congrArg Fin.val he
    have hf := congrArg BitVec.toNat hf
    simp only [BitVec.toNat_ofNat] at he hf
    have hge := le_divRoundEven n (2 ^ (Nat.log2 n - 52))
    have hpos : 0 < n / 2 ^ (Nat.log2 n - 52) := by
      apply Nat.div_pos _ (by positivity)
      calc 2 ^ (Nat.log2 n - 52) ≤ 2 ^ Nat.log2 n := Nat.pow_le_pow_right (by norm_num) (by omega)
        _ ≤ n := Nat.log2_self_le (by omega)
    simp at he hf
    omega
  · intro heq
    simp at heq

/-- R303: a sum is −0.0 only when its first operand is. -/
theorem add64_ne_negZero (a b : F64) (h : a ≠ .negZero) : add64 a b ≠ .negZero := by
  unfold add64
  cases a with
  | nan s p => intro heq; simp [addWith, someNaN] at heq
  | inf s =>
    cases b with
    | nan _ _ => intro heq; simp [addWith, someNaN] at heq
    | inf s' =>
      show (if s = s' then F64.inf s else someNaN _ _ _) ≠ _
      split
      · intro heq
        simp at heq
      · intro heq
        simp [someNaN] at heq
    | fin _ _ _ => intro heq; simp [addWith] at heq
  | fin sa ea fa =>
    cases b with
    | nan _ _ => intro heq; simp [addWith, someNaN] at heq
    | inf s' => intro heq; simp [addWith] at heq
    | fin sb eb fb =>
      show sumUnits _ _ _ ≠ _
      unfold sumUnits
      split
      · rename_i h0
        intro heq
        simp only [F64.fin.injEq, Bool.and_eq_true, and_true] at heq
        obtain ⟨rfl, rfl⟩ := heq
        simp only [signedUnits, if_true] at h0
        have : magUnits ea fa = 0 := by omega
        obtain ⟨rfl, rfl⟩ := (magUnits_eq_zero _ _).mp this
        exact h rfl
      · rename_i h0
        exact roundUnits_one_ne_zero _ _ _ (Int.natAbs_pos.mpr h0)

/-- R195, R303: what equals zero under IEEE equality. -/
theorem eq64_zero (x : F64) : eq64 x .posZero = true ↔ x = .posZero ∨ x = .negZero := by
  cases x with
  | nan _ _ => simp [eq64]
  | inf _ => simp [eq64]
  | fin s e f =>
    have h0 := magUnits_zero
    have hz := magUnits_eq_zero e f
    simp only [eq64, signedUnits, h0, beq_iff_eq, F64.fin.injEq]
    cases s <;> simp <;> tauto

/-- R14: rounding an exactly representable magnitude changes nothing. -/
theorem roundUnits_exact (neg : Bool) (e : Fin 2047) (f : BitVec 52) (d : Nat) (hd : 0 < d) :
    roundUnits neg (magUnits e f * d) d = .fin neg e f := by
  have hf := f.isLt
  have hdiv : magUnits e f * d / d = magUnits e f := Nat.mul_div_cancel _ hd
  have of_parts : ∀ k q, Nat.log2 (magUnits e f) - 52 = k → magUnits e f = q * 2 ^ k →
      2 ^ 52 * k + q = 2 ^ 52 * e.val + f.toNat →
      roundUnits neg (magUnits e f * d) d = .fin neg e f := by
    intro k q hk hq hm
    unfold roundUnits
    simp only [hdiv, hk]
    have hround : divRoundEven (magUnits e f * d) (d * 2 ^ k) = q := by
      rw [hq, show q * 2 ^ k * d = q * (d * 2 ^ k) by ring]
      exact divRoundEven_exact _ _ (by positivity)
    have of_code : ∀ m, m = 2 ^ 52 * e.val + f.toNat →
        (if h : m / 2 ^ 52 < 2047 then F64.fin neg ⟨m / 2 ^ 52, h⟩ (BitVec.ofNat 52 m)
          else .inf neg) = .fin neg e f := by
      intro m hm
      have he := e.isLt
      rw [dif_pos (by omega)]
      congr 1
      · apply Fin.ext
        simp only
        omega
      · apply BitVec.eq_of_toNat_eq
        simp only [BitVec.toNat_ofNat]
        omega
    exact of_code _ (by rw [hround, hm])
  by_cases h0 : e.val = 0
  · have hm : magUnits e f = f.toNat := by simp [magUnits, h0]
    have hlog : Nat.log2 f.toNat - 52 = 0 := by
      by_cases hz : f.toNat = 0
      · simp [hz]
      · have := (Nat.log2_lt hz).mpr hf
        omega
    exact of_parts 0 f.toNat (by rw [hm, hlog]) (by rw [hm]; simp) (by omega)
  · have hm : magUnits e f = 2 ^ (e.val - 1) * (2 ^ 52 + f.toNat) := by
      unfold magUnits
      rw [if_neg h0]
    have hlog : Nat.log2 (magUnits e f) = e.val - 1 + 52 := by
      have hne : magUnits e f ≠ 0 := by
        rw [hm]
        positivity
      rw [Nat.log2_eq_iff hne, hm]
      constructor
      · rw [pow_add]
        exact Nat.mul_le_mul_left _ (by omega)
      · rw [show e.val - 1 + 52 + 1 = e.val - 1 + 53 by omega, pow_add]
        exact Nat.mul_lt_mul_of_pos_left (by omega) (by positivity)
    exact of_parts (e.val - 1) (2 ^ 52 + f.toNat) (by rw [hlog]; omega)
      (by rw [hm, Nat.mul_comm]) (by omega)

end Sys2Proof
end

