-- ==== Sys2Proof/Laws/Sound.lean ====
section
/-! SUPPORT. What each operation on oscillators and envelopes can do: lengths, fields, cases. -/

namespace Sys2Proof.Machine

@[simp] theorem zeros_length (P : Params) : (zeros P).length = P.bs := by simp [zeros]

@[simp] theorem mulBlocks_length (a b : List F64) :
    (mulBlocks a b).length = min a.length b.length := by simp [mulBlocks]

@[simp] theorem addBlocks_length (a b : List F64) :
    (addBlocks a b).length = min a.length b.length := by simp [addBlocks]

/-- R257, R303: adding a block to a mix without −0.0 leaves it without. -/
theorem addBlocks_no_negZero (a b : List F64) (h : ∀ x ∈ a, x ≠ F64.negZero) :
    ∀ x ∈ addBlocks a b, x ≠ F64.negZero := by
  induction a generalizing b with
  | nil => simp [addBlocks]
  | cons x xs ih =>
    cases b with
    | nil => simp [addBlocks]
    | cons y ys =>
      intro z hz
      simp only [addBlocks, List.zipWith_cons_cons, List.mem_cons] at hz
      rcases hz with rfl | hz
      · exact add64_ne_negZero _ _ (h x (by simp))
      · exact ih ys (fun w hw => h w (by simp [hw])) z hz

@[simp] theorem oscStep_length (P : Params) (o : Osc) : (oscStep P o).2.length = P.bs := by
  simp [oscStep]

/-- R143: an oscillator step changes the counter only. -/
@[simp] theorem oscStep_record (P : Params) (o : Osc) :
    (oscStep P o).1 = { o with t := advance P o.t } := rfl

@[simp] theorem fmStep_length (P : Params) (f : FmOsc) : (fmStep P f).2.length = P.bs := by
  simp [fmStep]

/-- R148: an FM step changes the two counters only. -/
theorem fmStep_record (P : Params) (f : FmOsc) :
    (fmStep P f).1 =
      { f with t := advance P f.t, mod := { f.mod with t := advance P f.mod.t } } := rfl

@[simp] theorem slice_length (P : Params) (e : Envelope) : (e.slice P).length = P.bs := by
  simp [Envelope.slice]

/-- R169: the two cases of an envelope step. -/
theorem envStep_cases (P : Params) (e : Envelope) :
    (e.cursor < e.len ∧
      envStep P e = ({ e with cursor := e.cursor + P.bs }, .full (e.slice P))) ∨
    (e.len ≤ e.cursor ∧ envStep P e = (e, .hold e.last)) := by
  unfold envStep
  by_cases h : e.cursor < e.len
  · exact .inl ⟨h, if_pos h⟩
  · exact .inr ⟨Nat.le_of_not_lt h, if_neg h⟩

/-- R171: a block of an envelope step has BS values. -/
@[simp] theorem envStep_vals_length (P : Params) (e : Envelope) :
    ((envStep P e).2.vals P).length = P.bs := by
  rcases envStep_cases P e with ⟨-, h⟩ | ⟨-, h⟩ <;> simp [h, Block.vals]

/-- R169: an envelope step keeps everything but the cursor. -/
theorem envStep_frame (P : Params) (e : Envelope) :
    (envStep P e).1.points = e.points ∧ (envStep P e).1.len = e.len ∧
    (envStep P e).1.last = e.last := by
  rcases envStep_cases P e with ⟨-, h⟩ | ⟨-, h⟩ <;> simp [h]

/-- R164: the buffer length is the least multiple of BS that the span fits in. -/
theorem bufLen_spec (P : Params) (span : Nat) (h : 1 ≤ P.bs) :
    bufLen P span % P.bs = 0 ∧ span ≤ bufLen P span ∧ bufLen P span < span + P.bs := by
  unfold bufLen
  have hd := Nat.div_add_mod (span + P.bs - 1) P.bs
  have hm := Nat.mod_lt (span + P.bs - 1) (by omega : 0 < P.bs)
  have hc : (span + P.bs - 1) / P.bs * P.bs = P.bs * ((span + P.bs - 1) / P.bs) := Nat.mul_comm _ _
  refine ⟨Nat.mul_mod_left _ _, ?_, ?_⟩ <;> omega

/-- A span that is a multiple of BS is its own buffer length (R164). -/
theorem bufLen_mul (P : Params) (k : Nat) (h : 1 ≤ P.bs) : bufLen P (k * P.bs) = k * P.bs := by
  unfold bufLen
  congr 1
  rw [Nat.div_eq_iff (by omega)]
  constructor <;> omega

/-- R168: what env_build can answer: its checks passed, or the fault of the first that fails. -/
theorem envBuild_cases (P : Params) (pts : List Breakpoint) (stored : Bool) :
    (envCheck P pts stored = .none ∧ envBuild P pts stored = .ok (envMake P pts)) ∨
    (envCheck P pts stored ≠ .none ∧
      envBuild P pts stored = .error (envCheck P pts stored)) := by
  unfold envBuild
  cases h : envCheck P pts stored <;> simp

/-- R162, R163, R166: when the checks of env_build pass. -/
theorem envCheck_none_iff (P : Params) (pts : List Breakpoint) (stored : Bool) :
    envCheck P pts stored = .none ↔
      firstFrame pts = 0 ∧ framesOrdered pts = true ∧
      (stored = true → envFits P (bufLen P (spanOf pts)) = true) := by
  unfold envCheck
  split
  · simp_all
  · split
    · simp_all
    · split <;> simp_all

/-- R161: what frames() can answer. -/
theorem frames_cases (P : Params) (t : F64) :
    ((mul64 t (i2f P.sr)).isFinite = true ∧
      frames P t = .ok (roundTiesEven (mul64 t (i2f P.sr)))) ∨
    ((mul64 t (i2f P.sr)).isFinite = false ∧ frames P t = .error .configValue) := by
  unfold frames
  by_cases h : (mul64 t (i2f P.sr)).isFinite = true
  · exact .inl ⟨h, if_pos h⟩
  · exact .inr ⟨by simpa using h, if_neg h⟩

/-- R190: a0 = r0 = frames(+0.0) = 0. -/
theorem frames_posZero (P : Params) (h : P.sr < 4294967296) : frames P .posZero = .ok 0 := by
  obtain ⟨e, f, he⟩ := i2f_finite P.sr (by omega)
  have hz : mul64 .posZero (i2f P.sr) = .posZero := by rw [he]; exact mul64_posZero_fin _ _ _
  rcases frames_cases P .posZero with ⟨-, h⟩ | ⟨hf, -⟩
  · rw [h, hz]
    exact congrArg _ (roundTiesEven_zero false)
  · rw [hz] at hf
    exact absurd hf (by simp [F64.isFinite])

end Sys2Proof.Machine
end

