-- ==== Sys2Proof/Laws/State.lean ====
section
/-! SUPPORT. Reading each field of a state after each named update. -/

namespace Sys2Proof.Machine

@[simp] theorem State.raise_params (s : State) (c : FaultCode) (n : BitVec 8) (o : BitVec 4) (f : BitVec 16) :
    (s.raise c n o f).params = s.params := rfl
@[simp] theorem State.raise_cmdLast (s : State) (c : FaultCode) (n : BitVec 8) (o : BitVec 4) (f : BitVec 16) :
    (s.raise c n o f).cmdLast = s.cmdLast := rfl
@[simp] theorem State.raise_cfgAmp (s : State) (c : FaultCode) (n : BitVec 8) (o : BitVec 4) (f : BitVec 16) :
    (s.raise c n o f).cfgAmp = s.cfgAmp := rfl
@[simp] theorem State.raise_cfgFm (s : State) (c : FaultCode) (n : BitVec 8) (o : BitVec 4) (f : BitVec 16) :
    (s.raise c n o f).cfgFm = s.cfgFm := rfl
@[simp] theorem State.raise_cfgBeta (s : State) (c : FaultCode) (n : BitVec 8) (o : BitVec 4) (f : BitVec 16) :
    (s.raise c n o f).cfgBeta = s.cfgBeta := rfl
@[simp] theorem State.raise_cfgAttack (s : State) (c : FaultCode) (n : BitVec 8) (o : BitVec 4) (f : BitVec 16) :
    (s.raise c n o f).cfgAttack = s.cfgAttack := rfl
@[simp] theorem State.raise_cfgDecay (s : State) (c : FaultCode) (n : BitVec 8) (o : BitVec 4) (f : BitVec 16) :
    (s.raise c n o f).cfgDecay = s.cfgDecay := rfl
@[simp] theorem State.raise_cfgSustain (s : State) (c : FaultCode) (n : BitVec 8) (o : BitVec 4) (f : BitVec 16) :
    (s.raise c n o f).cfgSustain = s.cfgSustain := rfl
@[simp] theorem State.raise_cfgRelease (s : State) (c : FaultCode) (n : BitVec 8) (o : BitVec 4) (f : BitVec 16) :
    (s.raise c n o f).cfgRelease = s.cfgRelease := rfl
@[simp] theorem State.raise_cfgFlags (s : State) (c : FaultCode) (n : BitVec 8) (o : BitVec 4) (f : BitVec 16) :
    (s.raise c n o f).cfgFlags = s.cfgFlags := rfl
@[simp] theorem State.raise_arg (s : State) (c : FaultCode) (n : BitVec 8) (o : BitVec 4) (f : BitVec 16) :
    (s.raise c n o f).arg = s.arg := rfl
@[simp] theorem State.raise_busy (s : State) (c : FaultCode) (n : BitVec 8) (o : BitVec 4) (f : BitVec 16) :
    (s.raise c n o f).busy = s.busy := rfl
@[simp] theorem State.raise_halted (s : State) (c : FaultCode) (n : BitVec 8) (o : BitVec 4) (f : BitVec 16) :
    (s.raise c n o f).halted = true := rfl
@[simp] theorem State.raise_pending (s : State) (c : FaultCode) (n : BitVec 8) (o : BitVec 4) (f : BitVec 16) :
    (s.raise c n o f).pending = s.pending := rfl
@[simp] theorem State.raise_faultCode (s : State) (c : FaultCode) (n : BitVec 8) (o : BitVec 4) (f : BitVec 16) :
    (s.raise c n o f).faultCode = if s.faultCode = .none then c else s.faultCode := rfl
@[simp] theorem State.raise_faultNote (s : State) (c : FaultCode) (n : BitVec 8) (o : BitVec 4) (f : BitVec 16) :
    (s.raise c n o f).faultNote = if s.faultCode = .none then n else s.faultNote := rfl
@[simp] theorem State.raise_faultOp (s : State) (c : FaultCode) (n : BitVec 8) (o : BitVec 4) (f : BitVec 16) :
    (s.raise c n o f).faultOp = if s.faultCode = .none then o else s.faultOp := rfl
@[simp] theorem State.raise_faultOff (s : State) (c : FaultCode) (n : BitVec 8) (o : BitVec 4) (f : BitVec 16) :
    (s.raise c n o f).faultOff = if s.faultCode = .none then f else s.faultOff := rfl
@[simp] theorem State.raise_out (s : State) (c : FaultCode) (n : BitVec 8) (o : BitVec 4) (f : BitVec 16) :
    (s.raise c n o f).out = s.out := rfl
@[simp] theorem State.raise_slots (s : State) (c : FaultCode) (n : BitVec 8) (o : BitVec 4) (f : BitVec 16) :
    (s.raise c n o f).slots = s.slots := rfl
@[simp] theorem State.raise_agenda (s : State) (c : FaultCode) (n : BitVec 8) (o : BitVec 4) (f : BitVec 16) :
    (s.raise c n o f).agenda = s.agenda := rfl
@[simp] theorem State.raise_rdata (s : State) (c : FaultCode) (n : BitVec 8) (o : BitVec 4) (f : BitVec 16) :
    (s.raise c n o f).rdata = s.rdata := rfl
@[simp] theorem State.raise_freeCtr (s : State) (c : FaultCode) (n : BitVec 8) (o : BitVec 4) (f : BitVec 16) :
    (s.raise c n o f).freeCtr = s.freeCtr := rfl

@[simp] theorem State.setSlot_params (s : State) (n : Nat) (v : Slot) :
    (s.setSlot n v).params = s.params := rfl
@[simp] theorem State.setSlot_cmdLast (s : State) (n : Nat) (v : Slot) :
    (s.setSlot n v).cmdLast = s.cmdLast := rfl
@[simp] theorem State.setSlot_cfgAmp (s : State) (n : Nat) (v : Slot) :
    (s.setSlot n v).cfgAmp = s.cfgAmp := rfl
@[simp] theorem State.setSlot_cfgFm (s : State) (n : Nat) (v : Slot) :
    (s.setSlot n v).cfgFm = s.cfgFm := rfl
@[simp] theorem State.setSlot_cfgBeta (s : State) (n : Nat) (v : Slot) :
    (s.setSlot n v).cfgBeta = s.cfgBeta := rfl
@[simp] theorem State.setSlot_cfgAttack (s : State) (n : Nat) (v : Slot) :
    (s.setSlot n v).cfgAttack = s.cfgAttack := rfl
@[simp] theorem State.setSlot_cfgDecay (s : State) (n : Nat) (v : Slot) :
    (s.setSlot n v).cfgDecay = s.cfgDecay := rfl
@[simp] theorem State.setSlot_cfgSustain (s : State) (n : Nat) (v : Slot) :
    (s.setSlot n v).cfgSustain = s.cfgSustain := rfl
@[simp] theorem State.setSlot_cfgRelease (s : State) (n : Nat) (v : Slot) :
    (s.setSlot n v).cfgRelease = s.cfgRelease := rfl
@[simp] theorem State.setSlot_cfgFlags (s : State) (n : Nat) (v : Slot) :
    (s.setSlot n v).cfgFlags = s.cfgFlags := rfl
@[simp] theorem State.setSlot_arg (s : State) (n : Nat) (v : Slot) :
    (s.setSlot n v).arg = s.arg := rfl
@[simp] theorem State.setSlot_busy (s : State) (n : Nat) (v : Slot) :
    (s.setSlot n v).busy = s.busy := rfl
@[simp] theorem State.setSlot_halted (s : State) (n : Nat) (v : Slot) :
    (s.setSlot n v).halted = s.halted := rfl
@[simp] theorem State.setSlot_pending (s : State) (n : Nat) (v : Slot) :
    (s.setSlot n v).pending = s.pending := rfl
@[simp] theorem State.setSlot_faultCode (s : State) (n : Nat) (v : Slot) :
    (s.setSlot n v).faultCode = s.faultCode := rfl
@[simp] theorem State.setSlot_faultNote (s : State) (n : Nat) (v : Slot) :
    (s.setSlot n v).faultNote = s.faultNote := rfl
@[simp] theorem State.setSlot_faultOp (s : State) (n : Nat) (v : Slot) :
    (s.setSlot n v).faultOp = s.faultOp := rfl
@[simp] theorem State.setSlot_faultOff (s : State) (n : Nat) (v : Slot) :
    (s.setSlot n v).faultOff = s.faultOff := rfl
@[simp] theorem State.setSlot_out (s : State) (n : Nat) (v : Slot) :
    (s.setSlot n v).out = s.out := rfl
@[simp] theorem State.setSlot_slots (s : State) (n : Nat) (v : Slot) :
    (s.setSlot n v).slots = s.slots.set n v := rfl
@[simp] theorem State.setSlot_agenda (s : State) (n : Nat) (v : Slot) :
    (s.setSlot n v).agenda = s.agenda := rfl
@[simp] theorem State.setSlot_rdata (s : State) (n : Nat) (v : Slot) :
    (s.setSlot n v).rdata = s.rdata := rfl
@[simp] theorem State.setSlot_freeCtr (s : State) (n : Nat) (v : Slot) :
    (s.setSlot n v).freeCtr = s.freeCtr := rfl

@[simp] theorem State.latchCommand_params (s : State) (w : Word64) :
    (s.latchCommand w).params = s.params := rfl
@[simp] theorem State.latchCommand_cmdLast (s : State) (w : Word64) :
    (s.latchCommand w).cmdLast = w := rfl
@[simp] theorem State.latchCommand_cfgAmp (s : State) (w : Word64) :
    (s.latchCommand w).cfgAmp = s.cfgAmp := rfl
@[simp] theorem State.latchCommand_cfgFm (s : State) (w : Word64) :
    (s.latchCommand w).cfgFm = s.cfgFm := rfl
@[simp] theorem State.latchCommand_cfgBeta (s : State) (w : Word64) :
    (s.latchCommand w).cfgBeta = s.cfgBeta := rfl
@[simp] theorem State.latchCommand_cfgAttack (s : State) (w : Word64) :
    (s.latchCommand w).cfgAttack = s.cfgAttack := rfl
@[simp] theorem State.latchCommand_cfgDecay (s : State) (w : Word64) :
    (s.latchCommand w).cfgDecay = s.cfgDecay := rfl
@[simp] theorem State.latchCommand_cfgSustain (s : State) (w : Word64) :
    (s.latchCommand w).cfgSustain = s.cfgSustain := rfl
@[simp] theorem State.latchCommand_cfgRelease (s : State) (w : Word64) :
    (s.latchCommand w).cfgRelease = s.cfgRelease := rfl
@[simp] theorem State.latchCommand_cfgFlags (s : State) (w : Word64) :
    (s.latchCommand w).cfgFlags = s.cfgFlags := rfl
@[simp] theorem State.latchCommand_arg (s : State) (w : Word64) :
    (s.latchCommand w).arg = s.arg := rfl
@[simp] theorem State.latchCommand_busy (s : State) (w : Word64) :
    (s.latchCommand w).busy = true := rfl
@[simp] theorem State.latchCommand_halted (s : State) (w : Word64) :
    (s.latchCommand w).halted = s.halted := rfl
@[simp] theorem State.latchCommand_pending (s : State) (w : Word64) :
    (s.latchCommand w).pending = some w := rfl
@[simp] theorem State.latchCommand_faultCode (s : State) (w : Word64) :
    (s.latchCommand w).faultCode = s.faultCode := rfl
@[simp] theorem State.latchCommand_faultNote (s : State) (w : Word64) :
    (s.latchCommand w).faultNote = s.faultNote := rfl
@[simp] theorem State.latchCommand_faultOp (s : State) (w : Word64) :
    (s.latchCommand w).faultOp = s.faultOp := rfl
@[simp] theorem State.latchCommand_faultOff (s : State) (w : Word64) :
    (s.latchCommand w).faultOff = s.faultOff := rfl
@[simp] theorem State.latchCommand_out (s : State) (w : Word64) :
    (s.latchCommand w).out = s.out := rfl
@[simp] theorem State.latchCommand_slots (s : State) (w : Word64) :
    (s.latchCommand w).slots = s.slots := rfl
@[simp] theorem State.latchCommand_agenda (s : State) (w : Word64) :
    (s.latchCommand w).agenda = s.agenda := rfl
@[simp] theorem State.latchCommand_rdata (s : State) (w : Word64) :
    (s.latchCommand w).rdata = s.rdata := rfl
@[simp] theorem State.latchCommand_freeCtr (s : State) (w : Word64) :
    (s.latchCommand w).freeCtr = s.freeCtr := rfl

@[simp] theorem State.finishCommand_params (s : State) :
    (s.finishCommand).params = s.params := rfl
@[simp] theorem State.finishCommand_cmdLast (s : State) :
    (s.finishCommand).cmdLast = s.cmdLast := rfl
@[simp] theorem State.finishCommand_cfgAmp (s : State) :
    (s.finishCommand).cfgAmp = s.cfgAmp := rfl
@[simp] theorem State.finishCommand_cfgFm (s : State) :
    (s.finishCommand).cfgFm = s.cfgFm := rfl
@[simp] theorem State.finishCommand_cfgBeta (s : State) :
    (s.finishCommand).cfgBeta = s.cfgBeta := rfl
@[simp] theorem State.finishCommand_cfgAttack (s : State) :
    (s.finishCommand).cfgAttack = s.cfgAttack := rfl
@[simp] theorem State.finishCommand_cfgDecay (s : State) :
    (s.finishCommand).cfgDecay = s.cfgDecay := rfl
@[simp] theorem State.finishCommand_cfgSustain (s : State) :
    (s.finishCommand).cfgSustain = s.cfgSustain := rfl
@[simp] theorem State.finishCommand_cfgRelease (s : State) :
    (s.finishCommand).cfgRelease = s.cfgRelease := rfl
@[simp] theorem State.finishCommand_cfgFlags (s : State) :
    (s.finishCommand).cfgFlags = s.cfgFlags := rfl
@[simp] theorem State.finishCommand_arg (s : State) :
    (s.finishCommand).arg = s.arg := rfl
@[simp] theorem State.finishCommand_busy (s : State) :
    (s.finishCommand).busy = false := rfl
@[simp] theorem State.finishCommand_halted (s : State) :
    (s.finishCommand).halted = s.halted := rfl
@[simp] theorem State.finishCommand_pending (s : State) :
    (s.finishCommand).pending = none := rfl
@[simp] theorem State.finishCommand_faultCode (s : State) :
    (s.finishCommand).faultCode = s.faultCode := rfl
@[simp] theorem State.finishCommand_faultNote (s : State) :
    (s.finishCommand).faultNote = s.faultNote := rfl
@[simp] theorem State.finishCommand_faultOp (s : State) :
    (s.finishCommand).faultOp = s.faultOp := rfl
@[simp] theorem State.finishCommand_faultOff (s : State) :
    (s.finishCommand).faultOff = s.faultOff := rfl
@[simp] theorem State.finishCommand_out (s : State) :
    (s.finishCommand).out = s.out := rfl
@[simp] theorem State.finishCommand_slots (s : State) :
    (s.finishCommand).slots = s.slots := rfl
@[simp] theorem State.finishCommand_agenda (s : State) :
    (s.finishCommand).agenda = s.agenda := rfl
@[simp] theorem State.finishCommand_rdata (s : State) :
    (s.finishCommand).rdata = s.rdata := rfl
@[simp] theorem State.finishCommand_freeCtr (s : State) :
    (s.finishCommand).freeCtr = s.freeCtr := rfl

@[simp] theorem State.setAgenda_params (s : State) (es : List Event) :
    (s.setAgenda es).params = s.params := rfl
@[simp] theorem State.setAgenda_cmdLast (s : State) (es : List Event) :
    (s.setAgenda es).cmdLast = s.cmdLast := rfl
@[simp] theorem State.setAgenda_cfgAmp (s : State) (es : List Event) :
    (s.setAgenda es).cfgAmp = s.cfgAmp := rfl
@[simp] theorem State.setAgenda_cfgFm (s : State) (es : List Event) :
    (s.setAgenda es).cfgFm = s.cfgFm := rfl
@[simp] theorem State.setAgenda_cfgBeta (s : State) (es : List Event) :
    (s.setAgenda es).cfgBeta = s.cfgBeta := rfl
@[simp] theorem State.setAgenda_cfgAttack (s : State) (es : List Event) :
    (s.setAgenda es).cfgAttack = s.cfgAttack := rfl
@[simp] theorem State.setAgenda_cfgDecay (s : State) (es : List Event) :
    (s.setAgenda es).cfgDecay = s.cfgDecay := rfl
@[simp] theorem State.setAgenda_cfgSustain (s : State) (es : List Event) :
    (s.setAgenda es).cfgSustain = s.cfgSustain := rfl
@[simp] theorem State.setAgenda_cfgRelease (s : State) (es : List Event) :
    (s.setAgenda es).cfgRelease = s.cfgRelease := rfl
@[simp] theorem State.setAgenda_cfgFlags (s : State) (es : List Event) :
    (s.setAgenda es).cfgFlags = s.cfgFlags := rfl
@[simp] theorem State.setAgenda_arg (s : State) (es : List Event) :
    (s.setAgenda es).arg = s.arg := rfl
@[simp] theorem State.setAgenda_busy (s : State) (es : List Event) :
    (s.setAgenda es).busy = s.busy := rfl
@[simp] theorem State.setAgenda_halted (s : State) (es : List Event) :
    (s.setAgenda es).halted = s.halted := rfl
@[simp] theorem State.setAgenda_pending (s : State) (es : List Event) :
    (s.setAgenda es).pending = s.pending := rfl
@[simp] theorem State.setAgenda_faultCode (s : State) (es : List Event) :
    (s.setAgenda es).faultCode = s.faultCode := rfl
@[simp] theorem State.setAgenda_faultNote (s : State) (es : List Event) :
    (s.setAgenda es).faultNote = s.faultNote := rfl
@[simp] theorem State.setAgenda_faultOp (s : State) (es : List Event) :
    (s.setAgenda es).faultOp = s.faultOp := rfl
@[simp] theorem State.setAgenda_faultOff (s : State) (es : List Event) :
    (s.setAgenda es).faultOff = s.faultOff := rfl
@[simp] theorem State.setAgenda_out (s : State) (es : List Event) :
    (s.setAgenda es).out = s.out := rfl
@[simp] theorem State.setAgenda_slots (s : State) (es : List Event) :
    (s.setAgenda es).slots = s.slots := rfl
@[simp] theorem State.setAgenda_agenda (s : State) (es : List Event) :
    (s.setAgenda es).agenda = es := rfl
@[simp] theorem State.setAgenda_rdata (s : State) (es : List Event) :
    (s.setAgenda es).rdata = s.rdata := rfl
@[simp] theorem State.setAgenda_freeCtr (s : State) (es : List Event) :
    (s.setAgenda es).freeCtr = s.freeCtr := rfl

@[simp] theorem State.answer_params (s : State) (v : Word64) :
    (s.answer v).params = s.params := rfl
@[simp] theorem State.answer_cmdLast (s : State) (v : Word64) :
    (s.answer v).cmdLast = s.cmdLast := rfl
@[simp] theorem State.answer_cfgAmp (s : State) (v : Word64) :
    (s.answer v).cfgAmp = s.cfgAmp := rfl
@[simp] theorem State.answer_cfgFm (s : State) (v : Word64) :
    (s.answer v).cfgFm = s.cfgFm := rfl
@[simp] theorem State.answer_cfgBeta (s : State) (v : Word64) :
    (s.answer v).cfgBeta = s.cfgBeta := rfl
@[simp] theorem State.answer_cfgAttack (s : State) (v : Word64) :
    (s.answer v).cfgAttack = s.cfgAttack := rfl
@[simp] theorem State.answer_cfgDecay (s : State) (v : Word64) :
    (s.answer v).cfgDecay = s.cfgDecay := rfl
@[simp] theorem State.answer_cfgSustain (s : State) (v : Word64) :
    (s.answer v).cfgSustain = s.cfgSustain := rfl
@[simp] theorem State.answer_cfgRelease (s : State) (v : Word64) :
    (s.answer v).cfgRelease = s.cfgRelease := rfl
@[simp] theorem State.answer_cfgFlags (s : State) (v : Word64) :
    (s.answer v).cfgFlags = s.cfgFlags := rfl
@[simp] theorem State.answer_arg (s : State) (v : Word64) :
    (s.answer v).arg = s.arg := rfl
@[simp] theorem State.answer_busy (s : State) (v : Word64) :
    (s.answer v).busy = s.busy := rfl
@[simp] theorem State.answer_halted (s : State) (v : Word64) :
    (s.answer v).halted = s.halted := rfl
@[simp] theorem State.answer_pending (s : State) (v : Word64) :
    (s.answer v).pending = s.pending := rfl
@[simp] theorem State.answer_faultCode (s : State) (v : Word64) :
    (s.answer v).faultCode = s.faultCode := rfl
@[simp] theorem State.answer_faultNote (s : State) (v : Word64) :
    (s.answer v).faultNote = s.faultNote := rfl
@[simp] theorem State.answer_faultOp (s : State) (v : Word64) :
    (s.answer v).faultOp = s.faultOp := rfl
@[simp] theorem State.answer_faultOff (s : State) (v : Word64) :
    (s.answer v).faultOff = s.faultOff := rfl
@[simp] theorem State.answer_out (s : State) (v : Word64) :
    (s.answer v).out = s.out := rfl
@[simp] theorem State.answer_slots (s : State) (v : Word64) :
    (s.answer v).slots = s.slots := rfl
@[simp] theorem State.answer_agenda (s : State) (v : Word64) :
    (s.answer v).agenda = s.agenda := rfl
@[simp] theorem State.answer_rdata (s : State) (v : Word64) :
    (s.answer v).rdata = some v := rfl
@[simp] theorem State.answer_freeCtr (s : State) (v : Word64) :
    (s.answer v).freeCtr = s.freeCtr := rfl

@[simp] theorem State.answerAny_params (s : State) :
    (s.answerAny).params = s.params := rfl
@[simp] theorem State.answerAny_cmdLast (s : State) :
    (s.answerAny).cmdLast = s.cmdLast := rfl
@[simp] theorem State.answerAny_cfgAmp (s : State) :
    (s.answerAny).cfgAmp = s.cfgAmp := rfl
@[simp] theorem State.answerAny_cfgFm (s : State) :
    (s.answerAny).cfgFm = s.cfgFm := rfl
@[simp] theorem State.answerAny_cfgBeta (s : State) :
    (s.answerAny).cfgBeta = s.cfgBeta := rfl
@[simp] theorem State.answerAny_cfgAttack (s : State) :
    (s.answerAny).cfgAttack = s.cfgAttack := rfl
@[simp] theorem State.answerAny_cfgDecay (s : State) :
    (s.answerAny).cfgDecay = s.cfgDecay := rfl
@[simp] theorem State.answerAny_cfgSustain (s : State) :
    (s.answerAny).cfgSustain = s.cfgSustain := rfl
@[simp] theorem State.answerAny_cfgRelease (s : State) :
    (s.answerAny).cfgRelease = s.cfgRelease := rfl
@[simp] theorem State.answerAny_cfgFlags (s : State) :
    (s.answerAny).cfgFlags = s.cfgFlags := rfl
@[simp] theorem State.answerAny_arg (s : State) :
    (s.answerAny).arg = s.arg := rfl
@[simp] theorem State.answerAny_busy (s : State) :
    (s.answerAny).busy = s.busy := rfl
@[simp] theorem State.answerAny_halted (s : State) :
    (s.answerAny).halted = s.halted := rfl
@[simp] theorem State.answerAny_pending (s : State) :
    (s.answerAny).pending = s.pending := rfl
@[simp] theorem State.answerAny_faultCode (s : State) :
    (s.answerAny).faultCode = s.faultCode := rfl
@[simp] theorem State.answerAny_faultNote (s : State) :
    (s.answerAny).faultNote = s.faultNote := rfl
@[simp] theorem State.answerAny_faultOp (s : State) :
    (s.answerAny).faultOp = s.faultOp := rfl
@[simp] theorem State.answerAny_faultOff (s : State) :
    (s.answerAny).faultOff = s.faultOff := rfl
@[simp] theorem State.answerAny_out (s : State) :
    (s.answerAny).out = s.out := rfl
@[simp] theorem State.answerAny_slots (s : State) :
    (s.answerAny).slots = s.slots := rfl
@[simp] theorem State.answerAny_agenda (s : State) :
    (s.answerAny).agenda = s.agenda := rfl
@[simp] theorem State.answerAny_rdata (s : State) :
    (s.answerAny).rdata = some (Config.freeRead s.freeCtr) := rfl
@[simp] theorem State.answerAny_freeCtr (s : State) :
    (s.answerAny).freeCtr = s.freeCtr + 1 := rfl

@[simp] theorem State.platformReset_params (s : State) :
    s.platformReset.params = s.params := rfl
@[simp] theorem State.platformReset_cmdLast (s : State) :
    s.platformReset.cmdLast = (State.resetWith s.params).cmdLast := rfl
@[simp] theorem State.platformReset_cfgAmp (s : State) :
    s.platformReset.cfgAmp = (State.resetWith s.params).cfgAmp := rfl
@[simp] theorem State.platformReset_cfgFm (s : State) :
    s.platformReset.cfgFm = (State.resetWith s.params).cfgFm := rfl
@[simp] theorem State.platformReset_cfgBeta (s : State) :
    s.platformReset.cfgBeta = (State.resetWith s.params).cfgBeta := rfl
@[simp] theorem State.platformReset_cfgAttack (s : State) :
    s.platformReset.cfgAttack = (State.resetWith s.params).cfgAttack := rfl
@[simp] theorem State.platformReset_cfgDecay (s : State) :
    s.platformReset.cfgDecay = (State.resetWith s.params).cfgDecay := rfl
@[simp] theorem State.platformReset_cfgSustain (s : State) :
    s.platformReset.cfgSustain = (State.resetWith s.params).cfgSustain := rfl
@[simp] theorem State.platformReset_cfgRelease (s : State) :
    s.platformReset.cfgRelease = (State.resetWith s.params).cfgRelease := rfl
@[simp] theorem State.platformReset_cfgFlags (s : State) :
    s.platformReset.cfgFlags = (State.resetWith s.params).cfgFlags := rfl
@[simp] theorem State.platformReset_arg (s : State) :
    s.platformReset.arg = (State.resetWith s.params).arg := rfl
@[simp] theorem State.platformReset_busy (s : State) :
    s.platformReset.busy = (State.resetWith s.params).busy := rfl
@[simp] theorem State.platformReset_halted (s : State) :
    s.platformReset.halted = (State.resetWith s.params).halted := rfl
@[simp] theorem State.platformReset_pending (s : State) :
    s.platformReset.pending = (State.resetWith s.params).pending := rfl
@[simp] theorem State.platformReset_faultCode (s : State) :
    s.platformReset.faultCode = (State.resetWith s.params).faultCode := rfl
@[simp] theorem State.platformReset_faultNote (s : State) :
    s.platformReset.faultNote = (State.resetWith s.params).faultNote := rfl
@[simp] theorem State.platformReset_faultOp (s : State) :
    s.platformReset.faultOp = (State.resetWith s.params).faultOp := rfl
@[simp] theorem State.platformReset_faultOff (s : State) :
    s.platformReset.faultOff = (State.resetWith s.params).faultOff := rfl
@[simp] theorem State.platformReset_out (s : State) :
    s.platformReset.out = (State.resetWith s.params).out := rfl
@[simp] theorem State.platformReset_slots (s : State) :
    s.platformReset.slots = (State.resetWith s.params).slots := rfl
@[simp] theorem State.platformReset_agenda (s : State) :
    s.platformReset.agenda = s.agenda := rfl
@[simp] theorem State.platformReset_rdata (s : State) :
    s.platformReset.rdata = (State.resetWith s.params).rdata := rfl
@[simp] theorem State.platformReset_freeCtr (s : State) :
    s.platformReset.freeCtr = s.freeCtr := rfl

@[simp] theorem State.resetWith_params (P : Params) : (State.resetWith P).params = P := rfl

@[simp] theorem State.raiseCommand_eq (s : State) (c : FaultCode) (n o : Nat) :
    s.raiseCommand c n o = s.raise c (BitVec.ofNat 8 n) (BitVec.ofNat 4 o) 0 := rfl

@[simp] theorem State.raiseAccess_eq (s : State) (c : FaultCode) (off : BitVec 16) :
    s.raiseAccess c off = s.raise c 0 0 off := rfl

/-- Slot n after another slot is written. -/
theorem State.slot_setSlot_ne (s : State) (n k : Nat) (v : Slot) (h : k ≠ n) :
    (s.setSlot n v).slot k = s.slot k := by
  simp [State.slot, List.getD, List.getElem?_set_ne (Ne.symm h)]

/-- Slot n after it is written, when there is a slot n. -/
theorem State.slot_setSlot_self (s : State) (n : Nat) (v : Slot) (h : n < s.slots.length) :
    (s.setSlot n v).slot n = v := by
  simp [State.slot, List.getD, List.getElem?_set_self h]

/-- A register write that is not a CMD write keeps what no host register holds. -/
theorem State.writeReg_frame (s : State) (r : HostReg) (v : Word64) :
    (s.writeReg r v).params = s.params ∧ (s.writeReg r v).halted = s.halted ∧
    (s.writeReg r v).faultCode = s.faultCode ∧ (s.writeReg r v).faultNote = s.faultNote ∧
    (s.writeReg r v).faultOp = s.faultOp ∧ (s.writeReg r v).faultOff = s.faultOff ∧
    (s.writeReg r v).out = s.out ∧ (s.writeReg r v).slots = s.slots ∧
    (s.writeReg r v).agenda = s.agenda ∧ (s.writeReg r v).rdata = s.rdata ∧
    (s.writeReg r v).freeCtr = s.freeCtr := by
  cases r <;> simp [State.writeReg]

/-- What a register write leaves of the command handshake: only a CMD write changes it. -/
theorem State.writeReg_handshake (s : State) (r : HostReg) (v : Word64) (h : r ≠ .cmd) :
    (s.writeReg r v).busy = s.busy ∧ (s.writeReg r v).pending = s.pending ∧
    (s.writeReg r v).cmdLast = s.cmdLast := by
  cases r <;> simp_all [State.writeReg]

/-- What a register write leaves in CFG_FLAGS. -/
theorem State.writeReg_cfgFlags (s : State) (r : HostReg) (v : Word64) :
    (s.writeReg r v).cfgFlags = if r = .cfgFlags then flagsOfWrite v else s.cfgFlags := by
  cases r <;> simp [State.writeReg]

end Sys2Proof.Machine
end

