-- ==== Sys2Proof/Laws/Voice.lean ====
section
/-! SUPPORT. What each operation on ADSRs, voices and slots can do, and that it keeps them good. -/

namespace Sys2Proof.Machine

/-- R169, R43: an envelope step keeps an envelope good. -/
theorem envStep_ok (P : Params) (e : Envelope) (h : e.Ok P) : (envStep P e).1.Ok P := by
  rcases envStep_cases P e with ⟨hlt, he⟩ | ⟨-, he⟩
  · rw [he]
    refine ⟨h.len_mod, ?_, ?_, h.fits⟩
    · simpa using h.cursor_mod
    · obtain ⟨a, ha⟩ := Nat.dvd_of_mod_eq_zero h.len_mod
      obtain ⟨b, hb⟩ := Nat.dvd_of_mod_eq_zero h.cursor_mod
      show e.cursor + P.bs ≤ e.len
      rw [ha, hb] at hlt ⊢
      have : b < a := Nat.lt_of_mul_lt_mul_left hlt
      calc P.bs * b + P.bs = P.bs * (b + 1) := by ring
        _ ≤ P.bs * a := Nat.mul_le_mul_left _ this
  · rw [he]
    exact h

/-- R170: a reset envelope is good. -/
theorem envReset_ok (P : Params) (e : Envelope) (h : e.Ok P) : (envReset e).Ok P :=
  ⟨h.len_mod, by simp [envReset], Nat.zero_le _, h.fits⟩

/-- R168, R172: a built envelope that passed the checks is good. -/
theorem envMake_ok (P : Params) (pts : List Breakpoint) (hb : 1 ≤ P.bs)
    (h : envCheck P pts true = .none) : (envMake P pts).Ok P :=
  ⟨(bufLen_spec P _ hb).1, by simp [envMake], Nat.zero_le _,
    ((envCheck_none_iff P pts true).mp h).2.2 rfl⟩

/-- R190: what adsr_build answers when it answers a record. -/
theorem adsrBuild_ok_inv (P : Params) (attack decay sustain release : F64) (a : Adsr)
    (h : adsrBuild P attack decay sustain release = .ok a) :
    ∃ a0 a1 a2 r0 r1,
      frames P .posZero = .ok a0 ∧ frames P attack = .ok a1 ∧
      frames P (add64 attack decay) = .ok a2 ∧ frames P .posZero = .ok r0 ∧
      frames P release = .ok r1 ∧
      envCheck P (adPoints a0 a1 a2 sustain) true = .none ∧
      envCheck P (relPoints r0 r1 sustain) true = .none ∧
      a = { state := .idle, last := .posZero, ad := envMake P (adPoints a0 a1 a2 sustain),
            rel := envMake P (relPoints r0 r1 sustain) } := by
  unfold adsrBuild at h
  cases h0 : frames P .posZero with
  | error c => simp [h0, bind, Except.bind] at h
  | ok a0 =>
  cases h1 : frames P attack with
  | error c => simp [h0, h1, bind, Except.bind] at h
  | ok a1 =>
  cases h2 : frames P (add64 attack decay) with
  | error c => simp [h0, h1, h2, bind, Except.bind] at h
  | ok a2 =>
  cases h4 : frames P release with
  | error c =>
    rcases envBuild_cases P (adPoints a0 a1 a2 sustain) true with ⟨-, he⟩ | ⟨-, he⟩ <;>
      simp [h0, h1, h2, h4, he, bind, Except.bind] at h
  | ok r1 =>
  rcases envBuild_cases P (adPoints a0 a1 a2 sustain) true with ⟨hc, he⟩ | ⟨hc, he⟩
  · rcases envBuild_cases P (relPoints a0 r1 sustain) true with ⟨hc', he'⟩ | ⟨hc', he'⟩
    · refine ⟨a0, a1, a2, a0, r1, rfl, rfl, rfl, rfl, rfl, hc, hc', ?_⟩
      simpa [h0, h1, h2, h4, he, he', bind, Except.bind, pure, Except.pure] using h.symm
    · simp [h0, h1, h2, h4, he, he', bind, Except.bind] at h
  · simp [h0, h1, h2, he, bind, Except.bind] at h

/-- R161, R168: no failure of adsr_build has the code 0x00. -/
theorem adsrBuild_error_ne_none (P : Params) (attack decay sustain release : F64) (c : FaultCode)
    (h : adsrBuild P attack decay sustain release = .error c) : c ≠ .none := by
  have hf : ∀ t c', frames P t = .error c' → c' ≠ .none := by
    intro t c' ht
    rcases frames_cases P t with ⟨-, h'⟩ | ⟨-, h'⟩ <;> simp [h'] at ht
    simp [← ht]
  have hb : ∀ pts c', envBuild P pts true = .error c' → c' ≠ .none := by
    intro pts c' ht
    rcases envBuild_cases P pts true with ⟨-, h'⟩ | ⟨hn, h'⟩ <;> simp [h'] at ht
    exact ht ▸ hn
  unfold adsrBuild at h
  simp only [bind, Except.bind] at h
  split at h
  · rename_i he
    exact hf _ _ (he.trans (congrArg _ (Except.error.inj h)))
  · split at h
    · rename_i he
      exact hf _ _ (he.trans (congrArg _ (Except.error.inj h)))
    · split at h
      · rename_i he
        exact hf _ _ (he.trans (congrArg _ (Except.error.inj h)))
      · split at h
        · rename_i he
          exact hb _ _ (he.trans (congrArg _ (Except.error.inj h)))
        · split at h
          · rename_i he
            exact absurd he (by simp)
          · split at h
            · rename_i he
              exact hf _ _ (he.trans (congrArg _ (Except.error.inj h)))
            · split at h
              · rename_i he
                exact hb _ _ (he.trans (congrArg _ (Except.error.inj h)))
              · simp [pure, Except.pure] at h

/-- R193–R195: the values of an ADSR step are a full block. -/
@[simp] theorem adsrStep_vals_length (P : Params) (a : Adsr) :
    ((adsrStep P a).2.vals P).length = P.bs := by
  unfold adsrStep
  cases a.state
  · simp [adsrStepIdle, Block.vals]
  · simp [adsrStepActive]
  · simp [adsrStepReleasing]

/-- R196: an ADSR step leaves its state, or goes from releasing to idle. -/
theorem adsrStep_state (P : Params) (a : Adsr) :
    (adsrStep P a).1.state = a.state ∨
      (a.state = .releasing ∧ (adsrStep P a).1.state = .idle) := by
  unfold adsrStep
  cases h : a.state
  · simp [adsrStepIdle, h]
  · simp [adsrStepActive, h]
  · simp only [adsrStepReleasing]
    split <;> simp

/-- R193–R195: an ADSR step keeps both envelopes good and the release end at +0.0. -/
theorem adsrStep_ok (P : Params) (a : Adsr) (had : a.ad.Ok P) (hrel : a.rel.Ok P)
    (hl : a.rel.last = .posZero) :
    (adsrStep P a).1.ad.Ok P ∧ (adsrStep P a).1.rel.Ok P ∧ (adsrStep P a).1.rel.last = .posZero := by
  unfold adsrStep
  cases a.state
  · exact ⟨had, hrel, hl⟩
  · exact ⟨envStep_ok P _ had, hrel, hl⟩
  · exact ⟨had, envStep_ok P _ hrel, (envStep_frame P a.rel).2.2.trans hl⟩

/-- R211: a voice step gives a full block. -/
@[simp] theorem voiceStep_length (P : Params) (v : Voice) :
    (voiceStep P v).2.length = P.bs := by
  simp [voiceStep]

/-- R211: the record a voice step leaves. -/
theorem voiceStep_record (P : Params) (v : Voice) :
    (voiceStep P v).1 =
      { state := if (adsrStep P v.adsr).1.state = .idle then .off else v.state
        fm := (fmStep P v.fm).1
        adsr := (adsrStep P v.adsr).1 } := rfl

/-- R45, R211, R216: a voice step keeps a voice good. -/
theorem voiceStep_ok (P : Params) (v : Voice) (h : v.Ok P) : (voiceStep P v).1.Ok P := by
  obtain ⟨had, hrel, hl⟩ := adsrStep_ok P v.adsr h.ad_ok h.rel_ok h.rel_last
  rw [voiceStep_record]
  refine ⟨?_, ?_, had, hrel, hl⟩
  · simp only
    split
    · simp_all
    · rename_i hne
      constructor
      · intro hoff
        rcases adsrStep_state P v.adsr with hs | ⟨-, hs⟩
        · exact absurd (hs.trans (h.off_iff_idle.mp hoff)) hne
        · exact absurd hs hne
      · exact fun hi => absurd hi hne
  · simp [fmStep_record, h.counters]

/-- R210: a voice built on a built ADSR is good. -/
theorem voiceBuild_ok (P : Params) (fc amp fm beta : F64) (a : Adsr) (had : a.ad.Ok P)
    (hrel : a.rel.Ok P) (hl : a.rel.last = .posZero) : (voiceBuild fc amp fm beta a).Ok P :=
  ⟨by simp [voiceBuild, adsrStart], rfl, envReset_ok P _ had, hrel, hl⟩

/-- R190: the envelopes adsr_build makes are good, and the release one ends at +0.0. -/
theorem adsrBuild_ok (P : Params) (hb : 1 ≤ P.bs) (attack decay sustain release : F64) (a : Adsr)
    (h : adsrBuild P attack decay sustain release = .ok a) :
    a.ad.Ok P ∧ a.rel.Ok P ∧ a.rel.last = .posZero ∧ a.last = .posZero ∧
      a.ad.cursor = 0 ∧ a.rel.cursor = 0 := by
  obtain ⟨a0, a1, a2, r0, r1, -, -, -, -, -, hc, hc', rfl⟩ := adsrBuild_ok_inv P _ _ _ _ a h
  exact ⟨envMake_ok P _ hb hc, envMake_ok P _ hb hc', rfl, rfl, rfl, rfl⟩

/-- R213: NOTE_OFF keeps a live voice good. -/
theorem voiceNoteOff_ok (P : Params) (v : Voice) (h : v.Ok P) (hon : v.state = .on) :
    (voiceNoteOff v).Ok P :=
  ⟨by simp [voiceNoteOff, adsrRelease, hon], h.counters, h.ad_ok, envReset_ok P _ h.rel_ok,
    h.rel_last⟩

/-- R251: the fade block is a full block. -/
@[simp] theorem fadeBlock_length (P : Params) (a : F64) : (fadeBlock P a).length = P.bs :=
  envStep_vals_length P _

/-- R251: the fade envelope's checks cannot fail. -/
theorem fade_check (P : Params) (a : F64) : envCheck P (fadePoints P a) false = .none := by
  rw [envCheck_none_iff]
  simp [firstFrame, fadePoints, framesOrdered]

/-- R257: the four things a visit of NEXT can do to a slot. -/
theorem visitSlot_cases (P : Params) (sl : Slot) :
    (sl.mapped = false ∧ visitSlot P sl = (sl, none)) ∨
    (sl.mapped = true ∧ sl.voice.state = .off ∧
      visitSlot P sl = ({ sl with mapped := false, tailValid := false }, none)) ∨
    (sl.live = true ∧ sl.tailValid = true ∧
      visitSlot P sl = ({ sl with tailValid := false }, some sl.tail)) ∨
    (sl.live = true ∧ sl.tailValid = false ∧
      visitSlot P sl =
        ({ sl with voice := (voiceStep P sl.voice).1 }, some (voiceStep P sl.voice).2)) := by
  unfold visitSlot Slot.live
  cases hm : sl.mapped <;> cases hv : sl.voice.state <;> cases ht : sl.tailValid <;> simp

/-- R44, R45, R257: a visit of NEXT keeps a slot good. -/
theorem visitSlot_ok (P : Params) (sl : Slot) (h : sl.Ok P) : (visitSlot P sl).1.Ok P := by
  rcases visitSlot_cases P sl with ⟨-, he⟩ | ⟨-, -, he⟩ | ⟨hl, -, he⟩ | ⟨hl, ht, he⟩
  · rw [he]
    exact h
  · rw [he]
    exact ⟨by simp, by simp⟩
  · rw [he]
    exact ⟨h.voice_ok, by simp⟩
  · rw [he]
    exact ⟨fun hm => voiceStep_ok P _ (h.voice_ok hm), by simp [ht]⟩

/-- R257: the block a visit adds to the mix is a full block. -/
theorem visitSlot_length (P : Params) (sl : Slot) (h : sl.Ok P) (b : List F64)
    (hb : (visitSlot P sl).2 = some b) : b.length = P.bs := by
  rcases visitSlot_cases P sl with ⟨-, he⟩ | ⟨-, -, he⟩ | ⟨-, ht, he⟩ | ⟨-, -, he⟩
  · simp [he] at hb
  · simp [he] at hb
  · simp only [he, Option.some.injEq] at hb
    exact hb ▸ (h.tail_ok ht).tail_length
  · simp only [he, Option.some.injEq] at hb
    exact hb ▸ voiceStep_length P _

/-- R251, R250: the slot NOTE_ON leaves is good. -/
theorem noteOnSlot_ok (P : Params) (sl : Slot) (v : Voice) (hs : sl.Ok P) (hv : v.Ok P)
    (hon : v.state = .on) (ht : v.fm.t = 0) (hl : v.adsr.last = .posZero)
    (had : v.adsr.ad.cursor = 0) (hrel : v.adsr.rel.cursor = 0) : (noteOnSlot P sl v).Ok P := by
  refine ⟨fun _ => hv, fun htv => ⟨rfl, hon, ?_, ht, hl, had, hrel⟩⟩
  unfold noteOnSlot at htv ⊢
  by_cases hlive : sl.live = true
  · simp [hlive, crossfade]
  · simp only [hlive] at htv ⊢
    exact (hs.tail_ok htv).tail_length

/-- R255: the slot NOTE_OFF leaves is good. -/
theorem noteOffSlot_ok (P : Params) (sl : Slot) (h : sl.Ok P) : (noteOffSlot sl).Ok P := by
  unfold noteOffSlot
  split
  · rename_i hlive
    simp only [Slot.live, Bool.and_eq_true, decide_eq_true_eq] at hlive
    refine ⟨fun hm => voiceNoteOff_ok P _ (h.voice_ok hm) hlive.2, fun ht => ?_⟩
    have := h.tail_ok ht
    exact ⟨this.mapped, this.on, this.tail_length, this.fresh_t, this.fresh_last, this.fresh_ad, rfl⟩
  · exact h

end Sys2Proof.Machine
end

