-- ==== Sys2Proof/Laws/Commands.lean ====
section
/-! SUPPORT. What each command can do, said once: its possible next states. -/

namespace Sys2Proof.Machine

/-- R250: what NOTE_ON's checks can answer. -/
theorem noteOnAdsr_cases (s : State) (n : Nat) :
    (s.params.nNotes ≤ n ∧ noteOnAdsr s n = .error .noteRange) ∨
    (n < s.params.nNotes ∧ noteOnAdsr s n =
      adsrBuild s.params s.cfgAttack s.cfgDecay s.cfgSustain s.cfgRelease) := by
  unfold noteOnAdsr
  by_cases h : s.params.nNotes ≤ n
  · exact .inl ⟨h, if_pos h⟩
  · exact .inr ⟨Nat.lt_of_not_le h, if_neg h⟩

/-- R250, R284: NOTE_ON records its fault and changes nothing else, or installs a voice. -/
theorem execNoteOn_cases (n : Nat) (s : State) :
    (∃ c, noteOnAdsr s n = .error c ∧ execNoteOn n s = .next (s.raiseCommand c n 1)) ∨
    (∃ a, noteOnAdsr s n = .ok a ∧ execNoteOn n s =
      .next (s.setSlot n (noteOnSlot s.params (s.slot n) (noteOnVoice s n a)))) := by
  unfold execNoteOn
  cases h : noteOnAdsr s n with
  | error c => exact .inl ⟨c, rfl, rfl⟩
  | ok a => exact .inr ⟨a, rfl, rfl⟩

/-- R255: NOTE_OFF rewrites slot n when n is in range, and does nothing otherwise. -/
theorem execNoteOff_cases (n : Nat) (s : State) :
    (n < s.params.nNotes ∧ execNoteOff n s = .next (s.setSlot n (noteOffSlot (s.slot n)))) ∨
    (s.params.nNotes ≤ n ∧ execNoteOff n s = .next s) := by
  unfold execNoteOff
  by_cases h : n < s.params.nNotes
  · exact .inl ⟨h, by rw [if_pos h]⟩
  · exact .inr ⟨Nat.le_of_not_lt h, by rw [if_neg h]⟩

/-- R262–R264: a SET command changes the voice of a mapped slot in range, or nothing. -/
theorem updateMapped_cases (n : Nat) (f : Voice → Voice) (s : State) :
    (n < s.params.nNotes ∧ (s.slot n).mapped = true ∧
      updateMapped n f s = s.setSlot n { s.slot n with voice := f (s.slot n).voice }) ∨
    (¬(n < s.params.nNotes ∧ (s.slot n).mapped = true) ∧ updateMapped n f s = s) := by
  unfold updateMapped
  by_cases h : n < s.params.nNotes ∧ (s.slot n).mapped = true
  · exact .inl ⟨h.1, h.2, if_pos h⟩
  · exact .inr ⟨h, if_neg h⟩

/-- A SET command changes the slot file only. -/
theorem updateMapped_frame (n : Nat) (f : Voice → Voice) (s : State) :
    updateMapped n f s = { s with slots := (updateMapped n f s).slots } := by
  rcases updateMapped_cases n f s with ⟨-, -, h⟩ | ⟨-, h⟩ <;> rw [h] <;> rfl

/-- R257: one turn of NEXT's loop. -/
theorem mixLoop_cons (P : Params) (k : Nat) (ks : List Nat) (slots : List Slot) (acc : List F64) :
    mixLoop P (k :: ks) slots acc =
      mixLoop P ks (slots.set k (visitSlot P (slots.getD k .blank)).1)
        (mixIn acc (visitSlot P (slots.getD k .blank)).2) := rfl

/-- R257: NEXT's loop never changes how many slots there are. -/
theorem mixLoop_slots_length (P : Params) (ks : List Nat) (slots : List Slot) (acc : List F64) :
    (mixLoop P ks slots acc).1.length = slots.length := by
  induction ks generalizing slots acc with
  | nil => rfl
  | cons k ks ih => simp [mixLoop, ih]

/-- The blank slot is good. -/
theorem blank_ok (P : Params) : Slot.blank.Ok P := ⟨by simp [Slot.blank], by simp [Slot.blank]⟩

/-- A slot read by number is good when the slot file is. -/
theorem getD_ok (P : Params) (slots : List Slot) (h : ∀ sl ∈ slots, sl.Ok P) (k : Nat) :
    (slots.getD k .blank).Ok P := by
  by_cases hk : k < slots.length
  · rw [List.getD_eq_getElem _ _ hk]
    exact h _ (List.getElem_mem hk)
  · rw [List.getD_eq_default _ _ (Nat.le_of_not_lt hk)]
    exact blank_ok P

/-- Writing a good slot keeps a slot file good. -/
theorem set_ok (P : Params) (slots : List Slot) (k : Nat) (v : Slot) (h : ∀ sl ∈ slots, sl.Ok P)
    (hv : v.Ok P) : ∀ sl ∈ slots.set k v, sl.Ok P := by
  intro sl hsl
  rcases List.mem_or_eq_of_mem_set hsl with hm | rfl
  · exact h sl hm
  · exact hv

/-- Every command answers a next state: a fault of a command is a recorded one (R240, R285). -/
theorem exec_next (i : Instr) (s : State) : ∃ t, exec i s = .next t := by
  cases i <;> exact ⟨_, rfl⟩

end Sys2Proof.Machine
end

