-- ==== Sys2Proof/Laws/Agents.lean ====
section
/-! SUPPORT. What a host access, a completion and a step can do, said once. -/

namespace Sys2Proof.Machine

/-- R104: no register below the OUT window has an offset that the table does not list. -/
theorem regOffsets_lookup_none (n : Nat) (h : n ∉ regOffsets.map Prod.fst) :
    regOffsets.lookup n = none := by
  simp only [regOffsets, List.map_cons, List.map_nil, List.mem_cons, not_or] at h
  obtain ⟨h1, h2, h3, h4, h5, h6, h7, h8, h9, h10, h11, h12, h13, -⟩ := h
  simp [regOffsets, List.lookup, beq_eq_false_iff_ne.mpr, *]

/-- R72, R104: which register an access at an offset below the OUT window reaches. -/
theorem accessReg_low (P : Params) (off : BitVec 16) (h : off.toNat < 0x100) :
    accessReg P off 8 = if off.toNat % 8 = 0 then regOffsets.lookup off.toNat else none := by
  unfold accessReg regAt
  by_cases h8 : off.toNat % 8 = 0
  · rw [if_pos ⟨rfl, h8⟩, if_pos h8]
    simp only
    rw [if_neg (by omega)]
  · rw [if_neg (by omega), if_neg h8]

/-- R72, R104: an access at 0x100 + 8·i with i < BS reaches OUT[i]. -/
theorem accessReg_out (P : Params) (off : BitVec 16) (i : Nat) (hi : i < P.bs)
    (h : off.toNat = 0x100 + 8 * i) : accessReg P off 8 = some (.out i) := by
  unfold accessReg regAt
  rw [if_pos (by omega)]
  simp only
  rw [if_pos (by omega)]
  congr 2
  omega

/-- R70: an address BASE + off reaches the window at off. -/
theorem windowOffset_inside (P : Params) (off : BitVec 16) :
    windowOffset P (P.base + off.toNat) = some off := by
  have := off.isLt
  unfold windowOffset
  rw [if_pos (by omega)]
  simp

/-- R70, R78: an address below BASE or 2^16 and more above it is outside the window. -/
theorem windowOffset_outside (P : Params) (addr : Nat)
    (h : addr < P.base ∨ P.base + 2 ^ 16 ≤ addr) : windowOffset P addr = none := by
  unfold windowOffset
  rw [if_neg (by omega)]

/-- A run of one step more. -/
theorem core_run_succ (k : Nat) (s t : State) (h : step s = .next t) :
    core.run (k + 1) s = core.run k t := by
  have aux : ∀ s t : core.State, core.step s = .next t →
      Host.Core.run core (k + 1) s = Host.Core.run core k t := by
    intro s t h
    rw [Host.Core.run, h]
  exact aux s t h

/-- R72, R73, R76: the five things a host write can do. -/
theorem hostWrite_cases (s : State) (off : BitVec 16) (width : Nat) (v : Word64) :
    (s.halted = true ∧ hostWrite s off width v = s) ∨
    (s.halted = false ∧ accessReg s.params off width = none ∧
      hostWrite s off width v = s.raiseAccess .badAccess off) ∨
    (s.halted = false ∧ (∃ r, accessReg s.params off width = some r ∧ r.writable = false) ∧
      hostWrite s off width v = s.raiseAccess .badAccess off) ∨
    (s.halted = false ∧ (∃ r, accessReg s.params off width = some r ∧ r.writable = true) ∧
      s.busy = true ∧ hostWrite s off width v = s.raiseAccess .busyViolation off) ∨
    (s.halted = false ∧ s.busy = false ∧ ∃ r, accessReg s.params off width = some r ∧
      r.writable = true ∧ hostWrite s off width v = s.writeReg r v) := by
  unfold hostWrite
  cases hh : s.halted with
  | true => simp
  | false =>
    cases hr : accessReg s.params off width with
    | none => simp
    | some r =>
      cases hw : r.writable with
      | false => simp [hw]
      | true => cases hb : s.busy <;> simp [hw]

/-- R72, R74: the three things a host read can do. -/
theorem hostRead_cases (s : State) (off : BitVec 16) (width : Nat) :
    (accessReg s.params off width = none ∧
      hostRead s off width = (s.raiseAccess .badAccess off).answerAny) ∨
    (s.busy = true ∧ (∃ i, accessReg s.params off width = some (.out i)) ∧
      hostRead s off width = s.answerAny) ∨
    (∃ r, accessReg s.params off width = some r ∧ (s.busy = false ∨ ∀ i, r ≠ .out i) ∧
      hostRead s off width = s.answer (s.readReg r)) := by
  unfold hostRead
  cases hr : accessReg s.params off width with
  | none => exact .inl ⟨rfl, rfl⟩
  | some r =>
    cases r
    all_goals cases hb : s.busy <;> simp [readAnswer, hb]

/-- R240: a command word runs to a next state. -/
theorem runCommand_cases (s : State) (w : Word64) :
    (∃ i, decode w = .ok i ∧ runCommand s w = exec i s) ∨
    (∃ e, decode w = .error e ∧ runCommand s w = .next (illegalCommand s w)) := by
  unfold runCommand
  cases h : decode w with
  | ok i => exact .inl ⟨i, rfl, rfl⟩
  | error e => exact .inr ⟨e, rfl, rfl⟩

/-- R240: completion of a pending command. -/
theorem complete_some (s : State) (w : Word64) (h : s.pending = some w) :
    ∃ t, runCommand s w = .next t ∧ complete s = .next t.finishCommand := by
  have hrun : ∃ t, runCommand s w = .next t := by
    rcases runCommand_cases s w with ⟨i, -, he⟩ | ⟨-, -, he⟩
    · exact (exec_next i s).imp fun t ht => he.trans ht
    · exact ⟨_, he⟩
  obtain ⟨t, ht⟩ := hrun
  exact ⟨t, ht, by simp [complete, h, ht]⟩

/-- R20, R80: the seven kinds of step. -/
theorem step_cases (s : State) :
    (s.agenda = [] ∧ step s = coreTurn s) ∨
    (∃ rest, s.agenda = .core :: rest ∧ step s = coreTurn (s.setAgenda rest)) ∨
    (∃ a w rest, s.agenda = .read a w :: rest ∧
      step s = .next (busRead (s.setAgenda rest) a w)) ∨
    (∃ a w v rest, s.agenda = .write a w v :: rest ∧
      step s = .next (busWrite (s.setAgenda rest) a w v)) ∨
    (∃ rest, s.agenda = .wait :: rest ∧ step s = .next (waitPoll s rest)) ∨
    (∃ rest, s.agenda = .reset :: rest ∧ step s = .next (s.setAgenda rest).platformReset) := by
  unfold step agentStep
  cases h : s.agenda with
  | nil => exact .inl ⟨rfl, rfl⟩
  | cons e rest =>
    cases e with
    | core => exact .inr (.inl ⟨rest, rfl, rfl⟩)
    | read a w => exact .inr (.inr (.inl ⟨a, w, rest, rfl, rfl⟩))
    | write a w v => exact .inr (.inr (.inr (.inl ⟨a, w, v, rest, rfl, rfl⟩)))
    | wait => exact .inr (.inr (.inr (.inr (.inl ⟨rest, rfl, rfl⟩))))
    | reset => exact .inr (.inr (.inr (.inr (.inr ⟨rest, rfl, rfl⟩))))

end Sys2Proof.Machine
end

