-- ==== Sys2Proof/Laws/Config.lean ====
section
/-! SUPPORT. The parameters at reset are legal (R8). -/

namespace Sys2Proof

theorem Params.smallest_legal : Params.smallest.Legal := by decide

/-- R8: whatever the parameters at reset are, they are legal. -/
theorem Config.params_legal : Config.params.Legal := by
  unfold Config.params
  split
  · assumption
  · exact Params.smallest_legal

end Sys2Proof
end

