-- ==== Sys2Proof/Laws/Encoding.lean ====
section
/-! SUPPORT. The command word as a number: its fields, and what encode writes (R100, R120). -/

namespace Sys2Proof

theorem reservedClear_iff (w : Word64) :
    reservedClear w = true ↔ w.extractLsb' 16 48 = 0 ∧ w.extractLsb' 4 4 = 0 := by
  simp [reservedClear]

/-- R100: a word with its reserved fields 0 is OP + 256 · NOTE. -/
theorem toNat_of_reservedClear (w : Word64) (h : reservedClear w = true) :
    w.toNat = (opField w).toNat + 256 * (noteField w).toNat := by
  obtain ⟨h1, h2⟩ := (reservedClear_iff w).mp h
  have h1 := congrArg BitVec.toNat h1
  have h2 := congrArg BitVec.toNat h2
  simp [opField, noteField, BitVec.extractLsb'_toNat, Nat.shiftRight_eq_div_pow] at h1 h2 ⊢
  omega

/-- R100: the fields of the number OP + 256 · NOTE. -/
theorem fields_of_toNat (w : Word64) (op n : Nat) (ho : op < 8) (hn : n ≤ 255)
    (h : w.toNat = op + 256 * n) :
    reservedClear w = true ∧ (opField w).toNat = op ∧ (noteField w).toNat = n := by
  rw [reservedClear_iff]
  refine ⟨⟨?_, ?_⟩, ?_, ?_⟩
  · apply BitVec.eq_of_toNat_eq
    simp [BitVec.extractLsb'_toNat, Nat.shiftRight_eq_div_pow]
    omega
  · apply BitVec.eq_of_toNat_eq
    simp [BitVec.extractLsb'_toNat, Nat.shiftRight_eq_div_pow]
    omega
  · simp [opField, BitVec.extractLsb'_toNat]
    omega
  · simp [noteField, BitVec.extractLsb'_toNat, Nat.shiftRight_eq_div_pow]
    omega

/-- R120: OP OR (n << 8) is the number OP + 256 · n. -/
theorem encode_toNat (i : Instr) (h : i.wf = true) : (encode i).toNat = i.op + 256 * i.note := by
  have hn : i.note ≤ 255 := by cases i <;> simp_all [Instr.note, Instr.wf, noteInRange]
  have ho : i.op < 8 := by cases i <;> simp [Instr.op]
  have hor : (encode i).toNat = (i.op ||| i.note <<< 8) := by
    simp only [encode, BitVec.toNat_or, BitVec.toNat_shiftLeft, BitVec.toNat_ofNat,
      Nat.shiftLeft_eq]
    rw [Nat.mod_eq_of_lt (by omega : i.op < _), Nat.mod_eq_of_lt (by omega),
      Nat.mod_eq_of_lt (by omega)]
  rw [hor, Nat.or_comm, ← Nat.shiftLeft_add_eq_or_of_lt (by omega : i.op < 2 ^ 8),
    Nat.shiftLeft_eq]
  omega

end Sys2Proof
end

