-- ==== Sys2Proof/Laws/PerInstr.lean ====
section
/-! SUPPORT. Statements about every command, one lemma per constructor (LAWS.json). -/

namespace Sys2Proof.Laws.RowMask

/-- R100, R105: the row of a command pins its OP field and its reserved bits: the masked word of a
well-formed command is its row's pattern, and the pattern's low nibble is its OP. -/
def Statement (i : Instr) : Prop :=
  i.wf = true →
    ∃ r ∈ cmdRows, r.mnemonic = i.mnemonic ∧ r.pattern = BitVec.ofNat 64 i.op ∧
      encode i &&& r.mask = r.pattern

theorem note_masked (op n : Nat) (ho : op < 8) (hn : n ≤ 255) :
    (BitVec.ofNat 64 op ||| (BitVec.ofNat 64 n <<< 8)) &&& 0xFFFFFFFFFFFF00FF#64 =
      BitVec.ofNat 64 op := by
  apply BitVec.eq_of_getLsbD_eq
  intro k hk
  have hn' : ∀ j, 8 ≤ j → n.testBit j = false := fun j hj =>
    Nat.testBit_lt_two_pow (lt_of_lt_of_le (by omega : n < 2 ^ 8) (Nat.pow_le_pow_right (by norm_num) hj))
  have ho' : ∀ j, 3 ≤ j → op.testBit j = false := fun j hj =>
    Nat.testBit_lt_two_pow (lt_of_lt_of_le (by omega : op < 2 ^ 3) (Nat.pow_le_pow_right (by norm_num) hj))
  have hm : ∀ j : Fin 64, (0xFFFFFFFFFFFF00FF#64).getLsbD j.val = (decide (j.val < 8) || decide (16 ≤ j.val)) := by
    decide
  have hmk := hm ⟨k, hk⟩
  simp only at hmk
  simp only [BitVec.getLsbD_and, BitVec.getLsbD_or, BitVec.getLsbD_shiftLeft, BitVec.getLsbD_ofNat,
    hk, decide_true, Bool.true_and, hmk]
  by_cases h8 : k < 8
  · simp [h8]
  · by_cases h16 : 16 ≤ k
    · have := hn' (k - 8) (by omega)
      simp [h8, h16, this, ho' k (by omega)]
    · simp [h8, h16, ho' k (by omega)]

theorem noteOn (n : Nat) : Statement (.noteOn n) := fun h =>
  ⟨⟨"NOTE_ON", 0xFFFFFFFFFFFF00FF, 1⟩, by decide, rfl, rfl,
    note_masked 1 n (by norm_num) (by simpa [Instr.wf, noteInRange] using h)⟩

theorem noteOff (n : Nat) : Statement (.noteOff n) := fun h =>
  ⟨⟨"NOTE_OFF", 0xFFFFFFFFFFFF00FF, 2⟩, by decide, rfl, rfl,
    note_masked 2 n (by norm_num) (by simpa [Instr.wf, noteInRange] using h)⟩

theorem next : Statement .next := fun _ =>
  ⟨⟨"NEXT", 0xFFFFFFFFFFFFFFFF, 3⟩, by decide, rfl, rfl, by decide⟩

theorem stop : Statement .stop := fun _ =>
  ⟨⟨"STOP", 0xFFFFFFFFFFFFFFFF, 4⟩, by decide, rfl, rfl, by decide⟩

theorem setAmp (n : Nat) : Statement (.setAmp n) := fun h =>
  ⟨⟨"SET_AMP", 0xFFFFFFFFFFFF00FF, 5⟩, by decide, rfl, rfl,
    note_masked 5 n (by norm_num) (by simpa [Instr.wf, noteInRange] using h)⟩

theorem setFm (n : Nat) : Statement (.setFm n) := fun h =>
  ⟨⟨"SET_FM", 0xFFFFFFFFFFFF00FF, 6⟩, by decide, rfl, rfl,
    note_masked 6 n (by norm_num) (by simpa [Instr.wf, noteInRange] using h)⟩

theorem setBeta (n : Nat) : Statement (.setBeta n) := fun h =>
  ⟨⟨"SET_BETA", 0xFFFFFFFFFFFF00FF, 7⟩, by decide, rfl, rfl,
    note_masked 7 n (by norm_num) (by simpa [Instr.wf, noteInRange] using h)⟩

end Sys2Proof.Laws.RowMask
end

