-- ==== Sys2Proof/Laws/Rounding.lean ====
section
/-! SUPPORT. Rounding to nearest, ties to even (R14, R300): what rounding can answer. -/

namespace Sys2Proof

/-- R14: the rounded quotient is a nearest integer to n / D, and an even one at a tie. -/
theorem divRoundEven_nearest (n D : Nat) (hD : 0 < D) (m : Int) :
    |(divRoundEven n D : Int) * D - n| ≤ |m * D - n| ∧
    (m ≠ divRoundEven n D → |m * D - n| = |(divRoundEven n D : Int) * D - n| →
      divRoundEven n D % 2 = 0) := by
  have hdm := Nat.div_add_mod n D
  have hml := Nat.mod_lt n hD
  generalize hq : n / D = q at *
  generalize hr : n % D = r at *
  have hn : (n : Int) = D * q + r := by exact_mod_cast hdm.symm
  have hDq : (0 : Int) < D := by exact_mod_cast hD
  have hm : (m ≤ q ∧ m * D - n = -((q - m) * D + r)) ∨
      (q + 1 ≤ m ∧ m * D - n = (m - q - 1) * D + (D - r)) := by
    rcases lt_or_ge (q : Int) m with h | h
    · right; exact ⟨by omega, by rw [hn]; ring⟩
    · left; exact ⟨h, by rw [hn]; ring⟩
  have hrD : (r : Int) < D := by exact_mod_cast hml
  have dist : (m ≤ q ∧ |m * D - n| = (q - m) * D + r) ∨
      (q + 1 ≤ m ∧ |m * D - n| = (m - q - 1) * D + (D - r)) := by
    rcases hm with ⟨h, he⟩ | ⟨h, he⟩
    · left; refine ⟨h, ?_⟩; rw [he, abs_neg, abs_of_nonneg]
      have : 0 ≤ (q - m) * (D : Int) := mul_nonneg (by omega) (by omega)
      omega
    · right; refine ⟨h, ?_⟩; rw [he, abs_of_nonneg]
      have : 0 ≤ (m - q - 1) * (D : Int) := mul_nonneg (by omega) (by omega)
      omega
  have low : m ≤ q → m ≠ q → (D : Int) ≤ (q - m) * D := by
    intro h1 h2; nlinarith [show (1 : Int) ≤ q - m by omega]
  have hgh : (q : Int) + 1 ≤ m → m ≠ q + 1 → (D : Int) ≤ (m - q - 1) * D := by
    intro h1 h2; nlinarith [show (1 : Int) ≤ m - q - 1 by omega]
  have dq : |(q : Int) * D - n| = r := by
    rw [hn, show (q : Int) * D - (D * q + r) = -r by ring, abs_neg, abs_of_nonneg (by omega)]
  have dq1 : |((q : Int) + 1) * D - n| = D - r := by
    rw [hn, show ((q : Int) + 1) * D - (D * q + r) = D - r by ring, abs_of_nonneg (by omega)]
  have key : (divRoundEven n D = q ∧ 2 * r ≤ D ∧ (2 * r = D → q % 2 = 0)) ∨
      (divRoundEven n D = q + 1 ∧ D ≤ 2 * r ∧ (2 * r = D → q % 2 = 1)) := by
    unfold divRoundEven; rw [hq, hr]; simp only
    split
    · left; omega
    · split
      · right; omega
      · rcases Nat.mod_two_eq_zero_or_one q with h | h
        · left; omega
        · right; omega
  rcases key with ⟨hc, h1, h2⟩ | ⟨hc, h1, h2⟩
  · rw [hc, dq]
    rcases dist with ⟨h, he⟩ | ⟨h, he⟩
    · by_cases hmq : m = q
      · subst hmq; rw [dq]; exact ⟨le_refl _, fun h => absurd rfl h⟩
      · have := low h hmq; rw [he]; exact ⟨by omega, fun _ h => by omega⟩
    · by_cases hmq : m = q + 1
      · subst hmq; rw [dq1]; exact ⟨by omega, fun _ h => h2 (by omega)⟩
      · have := hgh h hmq; rw [he]; exact ⟨by omega, fun _ h => by omega⟩
  · rw [hc]; push_cast; rw [dq1]
    rcases dist with ⟨h, he⟩ | ⟨h, he⟩
    · by_cases hmq : m = q
      · subst hmq; rw [dq]; exact ⟨by omega, fun _ h => by omega⟩
      · have := low h hmq; rw [he]; exact ⟨by omega, fun _ h => by omega⟩
    · by_cases hmq : m = q + 1
      · subst hmq; rw [dq1]; exact ⟨by omega, fun h => absurd rfl h⟩
      · have := hgh h hmq; rw [he]; exact ⟨by omega, fun _ h => by omega⟩

/-- The exponent of the last significand place of n / d units, as `roundUnits` chooses it. -/
def roundScale (n d : Nat) : Nat := Nat.log2 (n / d) - 52

/-- The rounded significand of n / d units, as `roundUnits` computes it. -/
def roundSig (n d : Nat) : Nat := divRoundEven n (d * 2 ^ roundScale n d)

/-- Above the smallest scale, n / d has a full significand at its scale. -/
theorem roundScale_le (n d : Nat) (hd : 0 < d) (hk : 1 ≤ roundScale n d) :
    2 ^ (roundScale n d + 52) * d ≤ n := by
  unfold roundScale at *
  have h0 : n / d ≠ 0 := by intro h; simp [h] at hk
  have := Nat.log2_self_le h0
  rw [show Nat.log2 (n/d) - 52 + 52 = Nat.log2 (n/d) by omega]
  exact (Nat.le_div_iff_mul_le hd).mp this
/-- n / d has at most 53 bits at its scale. -/
theorem roundScale_lt (n d : Nat) (hd : 0 < d) : n < 2 ^ (roundScale n d + 53) * d := by
  unfold roundScale
  have h1 : n / d < 2 ^ (Nat.log2 (n/d) + 1) := Nat.lt_log2_self
  have h2 : n / d < 2 ^ (Nat.log2 (n/d) - 52 + 53) :=
    lt_of_lt_of_le h1 (Nat.pow_le_pow_right (by norm_num) (by omega))
  exact (Nat.div_lt_iff_lt_mul hd).mp h2

/-- The rounded significand has at most 53 bits, or is 2^53, the carry into the next exponent. -/
theorem roundSig_bounds (n d : Nat) (hd : 0 < d) :
    roundSig n d ≤ 2 ^ 53 ∧ (1 ≤ roundScale n d → 2 ^ 52 ≤ roundSig n d) := by
  have hp : 0 < d * 2 ^ roundScale n d := by positivity
  unfold roundSig
  constructor
  · have h := divRoundEven_le n (d * 2 ^ roundScale n d)
    have : n / (d * 2 ^ roundScale n d) < 2 ^ 53 := by
      rw [Nat.div_lt_iff_lt_mul hp]
      calc n < _ := roundScale_lt n d hd
        _ = _ := by rw [pow_add]; ring
    omega
  · intro hk
    have h := le_divRoundEven n (d * 2 ^ roundScale n d)
    have : 2 ^ 52 ≤ n / (d * 2 ^ roundScale n d) := by
      rw [Nat.le_div_iff_mul_le hp]
      calc _ = 2 ^ (roundScale n d + 52) * d := by rw [pow_add]; ring
        _ ≤ _ := roundScale_le n d hd hk
    omega

/-- What rounding can answer (R300): the finite value of the rounded significand, its last bit kept,
or an infinity where the exponent field overflows. -/
theorem roundUnits_parts (neg : Bool) (n d : Nat) (hd : 0 < d) :
    (2 ^ 52 * roundScale n d + roundSig n d < 2047 * 2 ^ 52 ∧
      ∃ e f, roundUnits neg n d = .fin neg e f ∧
        magUnits e f = roundSig n d * 2 ^ roundScale n d ∧ f.toNat % 2 = roundSig n d % 2) ∨
    (2047 * 2 ^ 52 ≤ 2 ^ 52 * roundScale n d + roundSig n d ∧
      roundUnits neg n d = .inf neg) := by
  obtain ⟨hc, hc2⟩ := roundSig_bounds n d hd
  have hdef : roundUnits neg n d =
      if h : (2 ^ 52 * roundScale n d + roundSig n d) / 2 ^ 52 < 2047 then
        .fin neg ⟨(2 ^ 52 * roundScale n d + roundSig n d) / 2 ^ 52, h⟩
          (BitVec.ofNat 52 (2 ^ 52 * roundScale n d + roundSig n d))
      else .inf neg := rfl
  rw [hdef]
  generalize roundSig n d = c at *
  generalize roundScale n d = k at *
  by_cases h : 2 ^ 52 * k + c < 2047 * 2 ^ 52
  · left
    refine ⟨h, _, _, dif_pos (by omega), ?_, ?_⟩
    · unfold magUnits
      simp only [BitVec.toNat_ofNat]
      by_cases h1 : c < 2 ^ 52
      · have hk : k = 0 := by
          by_contra hk
          have := hc2 (by omega)
          omega
        subst hk
        rw [if_pos (by omega), show (2 ^ 52 * 0 + c) / 2 ^ 52 - 1 = 0 by omega,
          show (2 ^ 52 * 0 + c) % 2 ^ 52 = c by omega]
        ring
      · by_cases h2 : c = 2 ^ 53
        · subst h2
          rw [if_neg (by omega), show (2 ^ 52 * k + 2 ^ 53) / 2 ^ 52 - 1 = k + 1 by omega,
            show (2 ^ 52 * k + 2 ^ 53) % 2 ^ 52 = 0 by omega]
          ring
        · rw [if_neg (by omega), show (2 ^ 52 * k + c) / 2 ^ 52 - 1 = k by omega,
            show 2 ^ 52 + (2 ^ 52 * k + c) % 2 ^ 52 = c by omega]
          ring
    · simp only [BitVec.toNat_ofNat]
      omega
  · right
    exact ⟨by omega, dif_neg (by omega)⟩

/-- A finite magnitude lies on the grid of scale k, or below all numbers of that scale. -/
theorem magUnits_grid (e : Fin 2047) (f : BitVec 52) (k : Nat) :
    (∃ m, magUnits e f = m * 2 ^ k) ∨ (1 ≤ k ∧ magUnits e f < 2 ^ (k + 52)) := by
  have hf := f.isLt
  unfold magUnits
  by_cases h : k ≤ e.val - 1
  · left
    refine ⟨2 ^ (e.val - 1 - k) * (if e.val = 0 then f.toNat else 2 ^ 52 + f.toNat), ?_⟩
    conv_lhs => rw [show e.val - 1 = e.val - 1 - k + k by omega, pow_add]
    ring
  · right
    refine ⟨by omega, ?_⟩
    have : (if e.val = 0 then f.toNat else 2 ^ 52 + f.toNat) < 2 ^ 53 := by split <;> omega
    calc _ < 2 ^ (e.val - 1) * 2 ^ 53 := Nat.mul_lt_mul_of_pos_left this (by positivity)
      _ ≤ 2 ^ (k - 1) * 2 ^ 53 :=
        Nat.mul_le_mul_right _ (Nat.pow_le_pow_right (by norm_num) (by omega))
      _ = 2 ^ (k + 52) := by rw [← pow_add]; congr 1; omega

/-- R14: no finite value z is nearer to n / d units than the rounded one, and one as near has the
rounded one even. -/
theorem roundUnits_nearest (n d : Nat) (hd : 0 < d) (z : Int) (e : Fin 2047) (f : BitVec 52)
    (hz : z.natAbs = magUnits e f) :
    |((roundSig n d * 2 ^ roundScale n d : Nat) : Int) * d - n| ≤ |z * d - n| ∧
    (z ≠ ((roundSig n d * 2 ^ roundScale n d : Nat) : Int) →
      |z * d - n| = |((roundSig n d * 2 ^ roundScale n d : Nat) : Int) * d - n| →
      roundSig n d % 2 = 0) := by
  have hp : 0 < d * 2 ^ roundScale n d := by positivity
  have near := divRoundEven_nearest n (d * 2 ^ roundScale n d) hp
  have hscale := roundScale_le n d hd
  unfold roundSig
  generalize divRoundEven n (d * 2 ^ roundScale n d) = c at *
  generalize roundScale n d = k at *
  have hc : ((c * 2 ^ k : Nat) : Int) * d = (c : Int) * ((d * 2 ^ k : Nat) : Int) := by
    push_cast
    ring
  rw [hc]
  rcases magUnits_grid e f k with ⟨m, hm⟩ | ⟨hk, hm⟩
  · obtain ⟨m', hm'⟩ : ∃ m' : Int, z = m' * 2 ^ k := by
      rcases Int.natAbs_eq z with h | h
      · exact ⟨m, by rw [h, hz, hm]; push_cast; ring⟩
      · exact ⟨-m, by rw [h, hz, hm]; push_cast; ring⟩
    have hzd : z * d = m' * ((d * 2 ^ k : Nat) : Int) := by rw [hm']; push_cast; ring
    rw [hzd]
    refine ⟨(near m').1, fun hne heq => (near m').2 ?_ heq⟩
    intro h; apply hne; rw [hm', h]; push_cast; ring
  · have hs := hscale hk
    have hb := (near (2 ^ 52)).1
    have h52 : (2 ^ 52 : Int) * ((d * 2 ^ k : Nat) : Int) = ((2 ^ (k + 52) * d : Nat) : Int) := by
      push_cast
      rw [pow_add]
      ring
    rw [h52] at hb
    have hlt : z * d < ((2 ^ (k + 52) * d : Nat) : Int) := by
      have : z < ((2 ^ (k + 52) : Nat) : Int) := by omega
      have hd' : (0 : Int) < d := by exact_mod_cast hd
      calc z * d < ((2 ^ (k + 52) : Nat) : Int) * d := Int.mul_lt_mul_of_pos_right this hd'
        _ = _ := by push_cast; ring
    have hs' : ((2 ^ (k + 52) * d : Nat) : Int) ≤ n := by exact_mod_cast hs
    generalize ((2 ^ (k + 52) * d : Nat) : Int) = A at *
    rw [abs_of_nonpos (show A - n ≤ 0 by omega)] at hb
    rw [abs_of_nonpos (show z * d - n ≤ 0 by omega)]
    exact ⟨by omega, fun _ h => by omega⟩

/-- R300: rounding overflows from half a last place above the greatest finite value on. -/
theorem roundUnits_overflow (n d : Nat) (hd : 0 < d) :
    2 ^ 52 * roundScale n d + roundSig n d < 2047 * 2 ^ 52 ↔
      n < d * 2 ^ 2044 * (2 ^ 54 - 1) := by
  obtain ⟨hc, hc2⟩ := roundSig_bounds n d hd
  have hlo := roundScale_le n d hd
  have hhi := roundScale_lt n d hd
  have hmono : ∀ a b : Nat, a ≤ b → 2 ^ a ≤ 2 ^ b :=
    fun a b h => Nat.pow_le_pow_right (by norm_num) h
  have near := divRoundEven_nearest n (d * 2 ^ roundScale n d) (by positivity)
  have hdiv := divRoundEven_le n (d * 2 ^ roundScale n d)
  have hdiv2 := le_divRoundEven n (d * 2 ^ roundScale n d)
  unfold roundSig at *
  generalize hcc : divRoundEven n (d * 2 ^ roundScale n d) = c at *
  generalize hkk : roundScale n d = k at *
  by_cases h1 : k ≤ 2044
  · refine ⟨fun _ => ?_, fun _ => by omega⟩
    calc n < 2 ^ (k + 53) * d := hhi
      _ ≤ 2 ^ (2044 + 53) * d := Nat.mul_le_mul_right _ (hmono _ _ (by omega))
      _ = d * 2 ^ 2044 * 2 ^ 53 := by rw [pow_add]; ring
      _ ≤ _ := Nat.mul_le_mul_left _ (by norm_num)
  · by_cases h2 : 2046 ≤ k
    · refine ⟨fun h => by have := hc2 (by omega); omega, fun h => ?_⟩
      exfalso
      have h3 := hlo (by omega)
      have : d * 2 ^ 2044 * 2 ^ 54 ≤ n := calc
        d * 2 ^ 2044 * 2 ^ 54 = 2 ^ (2046 + 52) * d := by
          rw [show 2046 + 52 = 2044 + 54 by norm_num, pow_add]
          ring
        _ ≤ 2 ^ (k + 52) * d := Nat.mul_le_mul_right _ (hmono _ _ (by omega))
        _ ≤ n := h3
      have h4 : d * 2 ^ 2044 * (2 ^ 54 - 1) ≤ d * 2 ^ 2044 * 2 ^ 54 :=
        Nat.mul_le_mul_left _ (by norm_num)
      omega
    · have hk : k = 2045 := by omega
      subst hk
      have hH : d * 2 ^ 2045 = 2 * (d * 2 ^ 2044) := by
        rw [show 2045 = 2044 + 1 by norm_num, pow_succ]
        ring
      rw [hH] at near hdiv hdiv2
      have hHp : 0 < d * 2 ^ 2044 := by positivity
      generalize d * 2 ^ 2044 = H at *
      have n1 := near (2 ^ 53)
      have n2 := near (2 ^ 53 - 1)
      push_cast at n1 n2
      constructor
      · intro h
        by_contra hge
        have hc3 : c ≤ 2 ^ 53 - 1 := by omega
        by_cases hbig : 2 ^ 53 * (2 * H) ≤ n
        · have : 2 ^ 53 ≤ n / (2 * H) := by rw [Nat.le_div_iff_mul_le (by omega)]; exact hbig
          omega
        · have hcH : (c : Int) * (2 * H) ≤ (2 ^ 53 - 1) * (2 * H) := by
            have : (c : Int) ≤ 2 ^ 53 - 1 := by omega
            exact Int.mul_le_mul_of_nonneg_right this (by omega)
          have hn : ((H * (2 ^ 54 - 1) : Nat) : Int) ≤ n := by omega
          rw [abs_of_nonpos (show (c : Int) * (2 * H) - n ≤ 0 by omega),
            abs_of_nonneg (show (0:Int) ≤ 9007199254740992 * (2 * H) - n by omega)] at n1
          have heq : (c : Int) * (2 * H) = (2 ^ 53 - 1) * (2 * H) := by omega
          have hc4 : (c : Int) = 2 ^ 53 - 1 := Int.eq_of_mul_eq_mul_right (by omega) heq
          have := n1.2 (by omega) (by rw [hc4]; omega)
          omega
      · intro h
        by_contra hge
        have hc3 : c = 2 ^ 53 := by omega
        subst hc3
        by_cases hs : (2 ^ 53 - 1) * (2 * H) ≤ n
        · have hn := n2.1
          push_cast at hn
          rw [abs_of_nonneg (by omega), abs_of_nonpos (by omega)] at hn
          omega
        · have : n / (2 * H) < 2 ^ 53 - 1 := by rw [Nat.div_lt_iff_lt_mul (by omega)]; omega
          omega

/-- R301: a zero times an infinity is a NaN, either way round. -/
theorem mul64_zero_inf (s t : Bool) :
    (mul64 (.zero s) (.inf t)).isNaN = true ∧ (mul64 (.inf s) (.zero t)).isNaN = true := by
  have h0 := magUnits_zero
  constructor
  · show (if magUnits 0 0 = 0 then someNaN .mul (.zero s) (.inf t) else .inf (s != t)).isNaN = true
    rw [if_pos h0, someNaN_isNaN]
  · show (if magUnits 0 0 = 0 then someNaN .mul (.inf s) (.zero t) else .inf (s != t)).isNaN = true
    rw [if_pos h0, someNaN_isNaN]

end Sys2Proof
end

