-- ==== Sys2Proof/Machine/FreqTable.lean ====
section
/-! DEFINITION. The default FREQ_TABLE (R9). State.reset does not use it: FREQ_TABLE is a parameter
(92_eei_decisions.md D18). -/

namespace Sys2Proof.Machine

/-- The greatest r with r^12 ≤ x among r0 + (0 .. 2^bits − 1), one bit at a time. -/
def root12 (x : Nat) : Nat → Nat → Nat
  | 0, r => r
  | b + 1, r => if (r + 2 ^ b) ^ 12 ≤ x then root12 x b (r + 2 ^ b) else root12 x b r

/-- 440^12 × 2^(n − 69), the twelfth power of the frequency of index n, in units of 2^(−69). -/
def tableFreqPower (n : Nat) : Nat := 440 ^ 12 * 2 ^ n

/-- 440 × 2^((n − 69)/12) (R9), nearest binary64, for n ≤ 255: 2^80 times the frequency is the
twelfth root of `tableFreqPower n` × 2^(960 − 69), found to 2^96 and rounded once. A root that is
not whole gets one more half unit below, so that it is no tie. -/
def tableFreq (n : Nat) : F64 :=
  let x := tableFreqPower n * 2 ^ (960 - 69)
  let r := root12 x 112 0
  let r2 := if r ^ 12 = x then 2 * r else 2 * r + 1
  roundUnits false (unitsPerOne * r2) (2 ^ 81)

/-- The default FREQ_TABLE for N_NOTES notes (R9). -/
def defaultFreqTable (nNotes : Nat) : List F64 := (List.range nNotes).map tableFreq

/-- A core with the values this spec gives where it gives one (R8, R9): 128 notes, the default
table, ascending mix order. -/
def defaultParams (sr bs : Nat) (envMax : Option Nat) (base : Nat) : Params :=
  { sr := sr, bs := bs, nNotes := 128, freqTable := defaultFreqTable 128, envMax := envMax,
    mixOrder := List.range 128, base := base, sinTable := [] }

end Sys2Proof.Machine
end

