-- ==== Sys2Proof/Machine/Program.lean ====
section
/-! DEFINITION. Host programs: assembler lines as host accesses (R120–R122). -/

namespace Sys2Proof.Machine

/-- The offset of a register (R104). -/
def HostReg.offset : HostReg → Nat
  | .cmd => 0x000
  | .status => 0x008
  | .cfgAmp => 0x010
  | .cfgFm => 0x018
  | .cfgBeta => 0x020
  | .cfgAttack => 0x028
  | .cfgDecay => 0x030
  | .cfgSustain => 0x038
  | .cfgRelease => 0x040
  | .cfgFlags => 0x048
  | .arg => 0x050
  | .param0 => 0x058
  | .param1 => 0x060
  | .out i => 0x100 + 8 * i

/-- `WR NAME, v` (R121). -/
def wr (P : Params) (r : HostReg) (v : Word64) : Event := .write (P.base + r.offset) 8 v

/-- `RD NAME` (R121). -/
def rd (P : Params) (r : HostReg) : Event := .read (P.base + r.offset) 8

/-- A command line: one write of its word to CMD, followed by nothing (R120). -/
def cmdLine (P : Params) (i : Instr) : Event := wr P .cmd (encode i)

/-- `CFG amp, fm, beta, attack, decay, sustain, release, fm_abs` (R122). -/
def cfgLines (P : Params) (amp fm beta attack decay sustain release : F64) (fmAbs : Word64) :
    List Event :=
  [ wr P .cfgAmp amp.toBits, wr P .cfgFm fm.toBits, wr P .cfgBeta beta.toBits,
    wr P .cfgAttack attack.toBits, wr P .cfgDecay decay.toBits, wr P .cfgSustain sustain.toBits,
    wr P .cfgRelease release.toBits, wr P .cfgFlags fmAbs ]

/-- `PLAY n` (R122). -/
def playLines (P : Params) (n : Nat) : List Event := [cmdLine P (.noteOn n), .wait]

/-- `RELEASE n` (R122). -/
def releaseLines (P : Params) (n : Nat) : List Event := [cmdLine P (.noteOff n), .wait]

/-- `BLOCK` (R122). -/
def blockLines (P : Params) : List Event :=
  [cmdLine P .next, .wait] ++ (List.range P.bs).map fun i => rd P (.out i)

/-- `PANIC` (R122). -/
def panicLines (P : Params) : List Event := [cmdLine P .stop, .wait]

/-- `AMP n, v` (R122). -/
def ampLines (P : Params) (n : Nat) (v : F64) : List Event :=
  [wr P .arg v.toBits, cmdLine P (.setAmp n), .wait]

/-- `MODF n, v` (R122). -/
def modfLines (P : Params) (n : Nat) (v : F64) : List Event :=
  [wr P .arg v.toBits, cmdLine P (.setFm n), .wait]

/-- `BETA n, v` (R122). -/
def betaLines (P : Params) (n : Nat) (v : F64) : List Event :=
  [wr P .arg v.toBits, cmdLine P (.setBeta n), .wait]

end Sys2Proof.Machine
end

