-- ==== Sys2Proof/Tests/Slice0.lean ====
section
/-! SUPPORT. Tests of single steps against the spec's examples (95_test_vectors.md and the rules),
and a witness for the hypotheses of each obligation that has any. -/

namespace Sys2Proof.Tests

open Sys2Proof Sys2Proof.Machine

/-! ### A small core -/

/-- Arguments and values of the correctly rounded sine for two blocks of a 2 Hz voice
(43_voice.md R211, R217). -/
def sineTable : List (Word64 × Word64) :=
  [ (0x0000000000000000, 0x0000000000000000), (0x3FF921FB54442D18, 0x3FF0000000000000),
    (0x400921FB54442D18, 0x3CA1A62633145C07), (0x4012D97C7F3321D2, 0xBFF0000000000000),
    (0x401921FB54442D18, 0xBCB1A62633145C07), (0x401F6A7A2955385E, 0x3FF0000000000000),
    (0x4022D97C7F3321D2, 0x3CBA79394C9E8A0A), (0x4025FDBBE9BBA775, 0xBFF0000000000000) ]

/-- SR = 8, BS = 4, N_NOTES = 4, FREQ_TABLE[n] = n Hz, ascending mix order. -/
def small : Params :=
  { sr := 8, bs := 4, nNotes := 4, freqTable := [0x0000000000000000, 0x3FF0000000000000, 0x4000000000000000, 0x4008000000000000].map F64.ofBits, envMax := none,
    mixOrder := [0, 1, 2, 3], base := 0x10000,
    sinTable := sineTable.map fun p => (.ofBits p.1, .ofBits p.2) }

/-- The small core after reset. -/
def fresh : State := .resetWith small

/-- The state a command leaves. -/
def after (i : Instr) (s : State) : State :=
  match exec i s with
  | .next t => t
  | .fault _ => s
  | .refused _ => s

/-- The state a step leaves. -/
def stepped (s : State) : State :=
  match step s with
  | .next t => t
  | .fault _ => s
  | .refused _ => s

/-- The state a command word leaves when it is delivered and completed. -/
def completed (w : Nat) (s : State) : State := stepped (s.withFetchWord 64 w)

/-- The configuration C0 of 95_test_vectors.md 2.9: amplitude 1, sustain 0.5, release 0.25 s. -/
def configured : State :=
  { fresh with cfgAmp := .ofBits 0x3FF0000000000000, cfgSustain := .ofBits 0x3FE0000000000000, cfgRelease := .ofBits 0x3FD0000000000000 }

/-- A voice of note 2 that has not sounded, and one that has sounded one block. -/
def started : State := after (.noteOn 2) configured
def sounding : State := after .next started

/-- The samples of OUT as encodings. -/
def outBits (s : State) : List Word64 := s.out.map F64.toBits

def nan0 : F64 := .nan false 0

/-! ### Encoding, with the words written field by field from R100: 63:16, NOTE, 7:4, OP -/

theorem test_noteOn_word : decode (0#48 ++ 0b00111100#8 ++ 0#4 ++ 0b0001#4) = .ok (.noteOn 60) := by
  decide
theorem test_noteOff_word : decode (0#48 ++ 0b01111111#8 ++ 0#4 ++ 0b0010#4) = .ok (.noteOff 127) := by
  decide
theorem test_next_word : decode (0#48 ++ 0b00000000#8 ++ 0#4 ++ 0b0011#4) = .ok .next := by decide
theorem test_stop_word : decode (0#48 ++ 0b00000000#8 ++ 0#4 ++ 0b0100#4) = .ok .stop := by decide
theorem test_setAmp_word : decode (0#48 ++ 0b00000101#8 ++ 0#4 ++ 0b0101#4) = .ok (.setAmp 5) := by
  decide
theorem test_setFm_word : decode (0#48 ++ 0b01111111#8 ++ 0#4 ++ 0b0110#4) = .ok (.setFm 127) := by
  decide
theorem test_setBeta_word : decode (0#48 ++ 0b11111111#8 ++ 0#4 ++ 0b0111#4) = .ok (.setBeta 255) := by
  decide

/-- 95_test_vectors.md 2.1: the illegal words. -/
theorem test_illegal_words :
    ([0x0, 0x8, 0xF, 0x103, 0x104, 0x13, 0x10002, 0x8000000000000001] : List Word64).all
      (fun w => (decode w).toOption.isNone) = true := by decide

/-- R75: the bytes of NOTE_ON 60, lowest address first; seven bytes are no word (R108). -/
theorem test_bytes :
    decodeBytes [0x01, 0x3C, 0, 0, 0, 0, 0, 0, 0xAA] = .ok (.noteOn 60, [0xAA]) ∧
    decodeBytes [0x01, 0x3C, 0, 0, 0, 0, 0] = .error .truncated := by decide

theorem test_table_word :
    decodeTableWord 64 0x7F07 = some (.setBeta 127) ∧ decodeTableWord 16 0x3C01 = some (.noteOn 60) ∧
    decodeTableWord 64 0x13 = none ∧ decodeTableWord 72 (2 ^ 64 + 3) = none := by decide

/-- R120: an assembler refuses a note id outside 0..255, in every command that has one. -/
theorem test_illformed_refused :
    [Instr.noteOn 256, .noteOff 256, .setAmp 256, .setFm 256, .setBeta 300].all
      (fun i => !i.wf && (assemble i).isNone) = true := by decide
theorem test_wellformed_assembles :
    assemble (.noteOn 255) = some 0xFF01 ∧ assemble .stop = some 0x04 ∧
    assemble (.setFm 0) = some 0x06 := by decide

/-! ### Arithmetic and tables -/

/-- R142, 95_test_vectors.md O1, O3, O7: phase arguments at SR = 8. -/
theorem test_phase_arguments :
    (phaseArg small (.ofBits 0x3FF0000000000000) 1 .posZero).toBits = 0x3FE921FB54442D18 ∧
    (phaseArg small (.ofBits 0x3FF0000000000000) 3 .posZero).toBits = 0x4002D97C7F3321D2 ∧
    (phaseArg small (.ofBits 0x4000000000000000) 11 .posZero).toBits = 0x4031475CC9EEDF00 ∧
    (phaseArg small (.ofBits 0x3FF0000000000000) 18446744073709551615 .posZero).toBits = 0x43E921FB54442D18 := by
  decide +kernel

/-- 95_test_vectors.md 2.3: frames() at SR = 8, ties to even, negative and non-finite times. -/
theorem test_frames :
    frames small (.ofBits 0x3FB0000000000000) = .ok 0 ∧ frames small (.ofBits 0x3FC8000000000000) = .ok 2 ∧
    frames small (.ofBits 0x3FD4000000000000) = .ok 2 ∧ frames small (.ofBits 0xBFD0000000000000) = .ok (-2) ∧
    frames small (.ofBits 0x43B0000000000000) = .ok 9223372036854775808 ∧
    frames small (.ofBits 0x7FE1CCF385EBC8A0) = .error .configValue ∧ frames small nan0 = .error .configValue := by
  decide +kernel

/-- 95_test_vectors.md 1.1: buf[3], buf[10], buf[17] and the padding of the source's envelope at BS = 8. -/
theorem test_envelope_scenario :
    let pts : List Breakpoint := [⟨0, .posZero⟩, ⟨10, .one⟩, ⟨20, .ofBits 0x3FE0000000000000⟩]
    bufLen { small with bs := 8 } (spanOf pts) = 24 ∧
    (([3, 10, 17, 23].map (sampleAt pts)).map F64.toBits) =
      [0x3FD3333333333334, 0x3FF0000000000000, 0x3FE4CCCCCCCCCCCC, 0x3FE0000000000000] := by
  decide +kernel

/-- 95_test_vectors.md E4: an empty internal segment. -/
theorem test_envelope_empty_segment :
    (bufFill small [⟨0, .posZero⟩, ⟨2, .one⟩, ⟨2, .ofBits 0x3FD0000000000000⟩, ⟨5, .one⟩]).map F64.toBits =
      [0x0000000000000000, 0x3FE0000000000000, 0x3FD0000000000000, 0x3FE0000000000000, 0x3FE8000000000000, 0x3FF0000000000000, 0x3FF0000000000000, 0x3FF0000000000000] := by
  decide +kernel

/-- 95_test_vectors.md E5, E6: an infinite step, and a start at −0. -/
theorem test_envelope_corners :
    ((bufFill small [⟨0, .ofBits 0xFFE1CCF385EBC8A0⟩, ⟨2, .ofBits 0x7FE1CCF385EBC8A0⟩]).map fun x => (x.isNaN, x.isFinite)) =
      [(true, false), (false, false), (false, true), (false, true)] ∧
    sampleAt [⟨0, .negZero⟩, ⟨2, .one⟩] 0 = .posZero := by
  decide +kernel

/-- 95_test_vectors.md E9–E12: the checks of env_build. -/
theorem test_envelope_faults :
    envCheck small [⟨1, .posZero⟩, ⟨4, .one⟩] true = .configError ∧
    envCheck small [⟨0, .posZero⟩, ⟨4, .one⟩, ⟨3, .posZero⟩] true = .configOrder ∧
    envCheck { small with envMax := some 8 } [⟨0, .posZero⟩, ⟨9, .one⟩] true = .envTooLong ∧
    envCheck { small with envMax := some 8 } [⟨0, .posZero⟩, ⟨8, .one⟩] true = .none := by
  decide

/-- R9: the default table at A4, and at middle C (440 × 2^(−9/12), rounded by hand). -/
theorem test_default_table :
    (tableFreq 69).toBits = 0x407B800000000000 ∧ (tableFreq 60).toBits = 0x40705A0250C2B956 := by decide +kernel

/-! ### Commands -/

/-- R250's example: what NOTE_ON 2 leaves in slot 2. -/
theorem test_noteOn_slot :
    (started.slot 2).mapped = true ∧ (started.slot 2).tailValid = false ∧
    (started.slot 2).voice.state = .on ∧ (started.slot 2).voice.adsr.state = .active ∧
    (started.slot 2).voice.fm.fc.toBits = 0x4000000000000000 ∧ (started.slot 2).voice.adsr.rel.len = 4 := by
  decide +kernel

/-- R251's example: the tail of a second NOTE_ON 2 after one NEXT. -/
theorem test_noteOn_tail :
    ((after (.noteOn 2) sounding).slot 2).tail.map F64.toBits =
      [0xBC91A62633145C07, 0x3FC8000000000000, 0x3C8A79394C9E8A0A, 0xBFB0000000000000] := by decide +kernel

/-- R257's example: the first block of that voice. -/
theorem test_next_block : outBits sounding = [0x0000000000000000, 0x3FE0000000000000, 0x3C91A62633145C07, 0xBFE0000000000000] := by
  decide +kernel

/-- R255's example: after NOTE_OFF the next block, −0.0 emitted as +0.0, and the voice is off. -/
theorem test_noteOff_block :
    outBits (after .next (after (.noteOff 2) sounding)) = [0xBCA1A62633145C07, 0x3FD0000000000000, 0x0000000000000000, 0x0000000000000000] ∧
    ((after .next (after (.noteOff 2) sounding)).slot 2).voice.state = .off := by decide +kernel

/-- R255 (c), 95_test_vectors.md F3: NOTE_OFF of a live voice. -/
theorem test_noteOff_state :
    ((after (.noteOff 2) started).slot 2).voice.adsr.state = .releasing := by decide +kernel

/-- R260: STOP unmaps every slot and keeps OUT. -/
theorem test_stop :
    ((after .stop sounding).slots.all fun sl => !sl.mapped && !sl.tailValid) = true ∧
    outBits (after .stop sounding) = outBits sounding := by decide +kernel

/-- R262–R264: each SET command writes its own field, from ARG. -/
theorem test_setAmp :
    ((after (.setAmp 2) { started with arg := .ofBits 0x3FE0000000000000 }).slot 2).voice.fm.amp.toBits =
      0x3FE0000000000000 := by decide +kernel
theorem test_setFm :
    ((after (.setFm 2) { started with arg := .ofBits 0x3FF0000000000000 }).slot 2).voice.fm.mod.freq.toBits =
      0x3FF0000000000000 := by decide +kernel
theorem test_setBeta :
    ((after (.setBeta 2) { started with arg := .ofBits 0x3FD0000000000000 }).slot 2).voice.fm.mod.amp.toBits =
      0x3FD0000000000000 := by decide +kernel

/-- 95_test_vectors.md N5, N6: the modulation frequency as a ratio and in Hz. -/
theorem test_noteOn_fm :
    ((after (.noteOn 3) { configured with cfgFm := .ofBits 0x3FE0000000000000 }).slot 3).voice.fm.mod.freq.toBits =
      0x3FF8000000000000 ∧
    ((after (.noteOn 3) { configured with
        cfgFm := .ofBits 0x3FE0000000000000, cfgFlags := 1 }).slot 3).voice.fm.mod.freq.toBits =
      0x3FE0000000000000 := by decide +kernel

/-! ### Faults and host accesses -/

/-- R288: NOTE_ON 200 at N_NOTES = 128, and NEXT with NOTE = 1. -/
theorem test_fault_status :
    (completed 0xC801 (.resetWith { small with nNotes := 128 })).statusWord = 0x0000000001C80202 ∧
    (completed 0x103 fresh).statusWord = 0x0000000003010102 := by decide +kernel

/-- R288: a release of −0.25 s is a backwards segment; the slot stays unmapped. -/
theorem test_config_order :
    let s := after (.noteOn 2) { fresh with cfgRelease := .ofBits 0xBFD0000000000000 }
    s.statusWord = 0x0000000001020502 ∧ (s.slot 2).mapped = false := by decide +kernel

/-- 95_test_vectors.md N10, N12: ENV_TOO_LONG, and CONFIG_ORDER before the release's CONFIG_VALUE. -/
theorem test_fault_priority :
    (after (.noteOn 2) { configured with
      params := { small with envMax := some 4 }, cfgRelease := .one }).faultCode = .envTooLong ∧
    (after (.noteOn 2) { configured with
      cfgAttack := .ofBits 0xBFF0000000000000, cfgRelease := .inf false }).faultCode = .configOrder := by
  decide +kernel

/-- 95_test_vectors.md 2.2: PARAM0, PARAM1, CFG_FLAGS, STATUS of refused accesses. -/
theorem test_host_reads :
    (hostRead fresh 0x058 8).rdata = some 0x0000000800000004 ∧
    (hostRead (.resetWith { small with nNotes := 128, envMax := some 4096 }) 0x060 8).rdata =
      some 0x0000100000000080 ∧
    (hostRead (hostWrite fresh 0x048 8 0xFFFFFFFFFFFFFFFF) 0x048 8).rdata = some 1 ∧
    (hostRead fresh 0x120 8).statusWord = 0x0000012000000802 ∧
    (hostRead fresh 0x014 8).statusWord = 0x0000001400000802 := by decide +kernel
theorem test_host_writes :
    (hostWrite fresh 0x008 8 0).statusWord = 0x0000000800000802 ∧
    (hostWrite fresh 0x100 8 0).statusWord = 0x0000010000000802 ∧
    (hostWrite (hostWrite fresh 0 8 3) 0x050 8 0).statusWord = 0x0000005000000703 ∧
    (hostRead (hostWrite fresh 0x010 8 0x8000000000000000) 0x010 8).rdata =
      some 0x8000000000000000 := by decide +kernel

/-- R286: a write while BUSY = 1 halts the core; the NEXT in flight still completes. -/
theorem test_flight :
    (stepped { stepped { hostWrite fresh 0 8 3 with
      agenda := [.write 0x10010 8 0, .core] } with agenda := [] }).statusWord =
        0x0000001000000702 := by decide +kernel

/-- R320: reset discards a pending command and the fault record. -/
theorem test_reset :
    (stepped { hostWrite (hostWrite fresh 0 8 3) 0x050 8 0 with agenda := [.reset] }) =
      { fresh with agenda := [] } := by decide +kernel

/-- R122: AMP n, v as host accesses. -/
theorem test_amp_lines :
    ampLines small 2 (.ofBits 0x3FD0000000000000) =
      [.write 0x10050 8 0x3FD0000000000000, .write 0x10000 8 0x0000000000000205, .wait] := by decide +kernel
/-! ### Witnesses: concrete states and operands that meet the hypotheses of each obligation -/

/-- A command in flight in the small core. -/
def flying (w : Word64) : State := { configured with cmdLast := w, pending := some w, busy := true }

theorem witness_DecodeEncodeRoundTrip :
    (Instr.noteOn 255).wf = true ∧ (Instr.setBeta 0).wf = true ∧ Instr.next.wf = true := by decide
theorem witness_EncodeDecodeRoundTrip : decode 0xFF07 = .ok (.setBeta 255) := by decide
theorem witness_LegalWordMatchesOneRow :
    decode 0x3C01 = .ok (.noteOn 60) ∧
    (⟨"NOTE_ON", 0xFFFFFFFFFFFF00FF, 1⟩ : CmdRow) ∈ cmdRows ∧
    (⟨"NOTE_ON", 0xFFFFFFFFFFFF00FF, 1⟩ : CmdRow).accepts 0x3C01 = true := by decide
theorem witness_StepRunsPendingCommand :
    CoreNext (flying 3) [] ∧ CoreNext { flying 3 with agenda := [.core, .wait] } [.wait] ∧
    (flying 3).busy = true ∧ (flying 3).pending = some 3 ∧ decode 3 = .ok .next :=
  ⟨.inr ⟨rfl, rfl⟩, .inl rfl, rfl, rfl, by decide⟩
theorem witness_FetchedWordRuns : decode 0x0201 = .ok (.noteOn 2) := by decide
theorem witness_IllegalWordFaults :
    IllegalWord 0x0 ∧ IllegalWord 0x8 ∧ IllegalWord 0xF ∧ IllegalWord 0x13 ∧ IllegalWord 0x10003 ∧
    IllegalWord 0x8000000000000001 ∧ IllegalWord 0x103 ∧ IllegalWord 0xFF04 ∧
    CoreNext (flying 0x13) [] ∧ (flying 0x13).busy = true ∧ (flying 0x13).pending = some 0x13 ∧
    (flying 0x13).faultCode = .none := by
  unfold IllegalWord
  exact ⟨by decide, by decide, by decide, by decide, by decide, by decide, by decide, by decide,
    .inr ⟨rfl, rfl⟩, rfl, rfl, rfl⟩
theorem witness_IssuedCommandCompletes :
    { flying 3 with agenda := [.read 0x10008 8, .wait] }.busy = true ∧
    { flying 3 with agenda := [.read 0x10008 8, .wait] }.pending = some 3 ∧
    Event.reset ∉ { flying 3 with agenda := [.read 0x10008 8, .wait] }.agenda :=
  ⟨rfl, rfl, by decide⟩
/-- Every kind of event, the accesses at both ends of the window and just outside it. -/
theorem witness_StepTakesFirstEvent :
    (CoreNext fresh [] ∧ fresh.busy = false) ∧
    (CoreNext { fresh with busy := true } [] ∧ { fresh with busy := true }.pending = none) ∧
    (CoreNext (flying 3) [] ∧ (flying 3).busy = true ∧ (flying 3).pending = some 3 ∧
      decode 3 = .ok .next ∧ ∃ t, exec .next { flying 3 with agenda := [] } = .next t) ∧
    (CoreNext (flying 0x13) [] ∧ (flying 0x13).busy = true ∧
      (flying 0x13).pending = some 0x13 ∧ IllegalWord 0x13) ∧
    [Event.read 0x10000 8] = .read (small.base + (0x0000 : BitVec 16).toNat) 8 :: [] ∧
    [Event.write 0x1FFFF 8 0] = .write (small.base + (0xFFFF : BitVec 16).toNat) 8 0 :: [] ∧
    0xFFFF < small.base ∧ small.base + 2 ^ 16 ≤ 0x20000 ∧
    { fresh with agenda := [.wait] }.agenda = .wait :: [] ∧
    ({ flying 3 with agenda := [.wait] }.agenda = .wait :: [] ∧
      { flying 3 with agenda := [.wait] }.busy = true) ∧
    { flying 3 with agenda := [.reset] }.agenda = .reset :: [] :=
  ⟨⟨.inr ⟨rfl, rfl⟩, rfl⟩, ⟨.inr ⟨rfl, rfl⟩, rfl⟩, ⟨.inr ⟨rfl, rfl⟩, rfl, rfl, by decide, _, rfl⟩,
    ⟨.inr ⟨rfl, rfl⟩, rfl, rfl, by unfold IllegalWord; decide⟩, by decide, by decide, by decide,
    by decide, rfl, ⟨rfl, rfl⟩, rfl⟩

theorem small_legal : small.Legal := by decide +kernel

theorem accepts_configured : NoteOnAccepts configured 2 0 0 2 :=
  ⟨by decide, by decide +kernel, by decide +kernel, by decide +kernel, by decide +kernel,
    by decide +kernel, by decide +kernel, by decide, by decide, by decide, by decide, by decide⟩
/-- With a bounded envelope memory, at the bound: ENV_MAX_FRAMES = 4 = L of the release. -/
theorem accepts_bounded :
    NoteOnAccepts { configured with params := { small with envMax := some 4 } } 3 0 0 2 :=
  ⟨by decide, by decide +kernel, by decide +kernel, by decide +kernel, by decide +kernel,
    by decide +kernel, by decide +kernel, by decide, by decide, by decide, by decide, by decide⟩
theorem witness_NoteOnStartsVoice :
    configured.params.Legal ∧ NoteOnAccepts configured 2 0 0 2 ∧
    ¬((configured.slot 2).mapped = true ∧ (configured.slot 2).voice.state = .on) :=
  ⟨small_legal, accepts_configured, by decide⟩
theorem accepts_sounding : NoteOnAccepts sounding 2 0 0 2 :=
  ⟨by decide +kernel, by decide +kernel, by decide +kernel, by decide +kernel, by decide +kernel,
    by decide +kernel, by decide +kernel, by decide, by decide, by decide, by decide +kernel,
    by decide +kernel⟩
theorem witness_NoteOnCrossfadesLiveVoice :
    sounding.params.Legal ∧ NoteOnAccepts sounding 2 0 0 2 ∧ (sounding.slot 2).mapped = true ∧
    (sounding.slot 2).voice.state = .on :=
  ⟨by decide +kernel, accepts_sounding, by decide +kernel, by decide +kernel⟩
theorem witness_NoteOnOutOfRangeFaults :
    configured.params.nNotes ≤ 4 ∧ configured.faultCode = .none := by decide
theorem witness_NoteOnReportsFirstFailure :
    configured.params.Legal ∧ noteOnFirstFailure configured 4 = .noteRange ∧
    noteOnFirstFailure { configured with cfgAttack := nan0 } 3 = .configValue ∧
    noteOnFirstFailure { configured with cfgDecay := .inf false } 3 = .configValue ∧
    noteOnFirstFailure { configured with cfgDecay := F64.one.neg } 3 = .configOrder ∧
    noteOnFirstFailure { configured with
      params := { small with envMax := some 4 }, cfgAttack := .one } 3 = .envTooLong ∧
    noteOnFirstFailure { configured with cfgRelease := .inf true } 3 = .configValue ∧
    noteOnFirstFailure { configured with cfgRelease := F64.one.neg } 3 = .configOrder ∧
    noteOnFirstFailure { configured with
      params := { small with envMax := some 4 }, cfgRelease := .one } 3 = .envTooLong ∧
    noteOnFirstFailure configured 3 = .none := by decide +kernel
theorem witness_NoteOffReleasesLiveVoice :
    2 < sounding.params.nNotes ∧ (sounding.slot 2).mapped = true ∧
    (sounding.slot 2).voice.state = .on ∧
    ((after (.noteOff 2) sounding).slot 2).voice.state = .on ∧
    ((after (.noteOff 2) sounding).slot 2).voice.adsr.state = .releasing := by decide +kernel
theorem witness_NoteOffOtherwise :
    ¬(4 < fresh.params.nNotes) ∧ (fresh.slot 3).mapped = false ∧
    ((after .next (after (.noteOff 2) sounding)).slot 2).mapped = true ∧
    ((after .next (after (.noteOff 2) sounding)).slot 2).voice.state = .off := by decide +kernel
theorem witness_NextMixesEverySlot :
    sounding.params.Legal ∧ sounding.slots.length = sounding.params.nNotes := by decide +kernel
theorem witness_NextSilentWhenNothingMapped : ∀ sl ∈ fresh.slots, sl.mapped = false := by decide
theorem witness_SetWritesVoice :
    2 < started.params.nNotes ∧ (started.slot 2).mapped = true := by decide +kernel
theorem witness_SetOtherwise :
    ¬(4 < started.params.nNotes ∧ (started.slot 4).mapped = true) ∧
    ¬(3 < started.params.nNotes ∧ (started.slot 3).mapped = true) := by decide +kernel
theorem witness_CommandsFrame :
    (Instr.noteOff 2) ≠ .next ∧ ∀ n, Instr.noteOff 2 ≠ .noteOn n := ⟨by decide, by simp⟩
theorem witness_CommandsTouchOwnSlotOnly :
    Instr.noteOn 2 ≠ .next ∧ Instr.noteOn 2 ≠ .stop ∧ 3 ≠ (Instr.noteOn 2).note := by decide
theorem witness_OnlyNoteOnWritesEnvelopes : ∀ n, Instr.next ≠ .noteOn n := by simp

theorem witness_MalformedAccessFaults :
    (4 ≠ 8 ∨ (0x010 : BitVec 16).toNat % 8 ≠ 0) ∧ (8 ≠ 8 ∨ (0xFFFF : BitVec 16).toNat % 8 ≠ 0) ∧
    fresh.halted = false ∧ fresh.faultCode = .none ∧ (hostRead fresh 0x068 8).halted = true ∧
    (hostRead fresh 0x068 8).faultCode ≠ .none := by decide
/-- Both sides of the writable range, in both BUSY states. -/
theorem witness_HostWriteRule :
    (hostRead fresh 0x068 8).halted = true ∧
    fresh.halted = false ∧ fresh.faultCode = .none ∧ fresh.busy = false ∧
    (flying 3).halted = false ∧ (flying 3).faultCode = .none ∧ (flying 3).busy = true ∧
    (0x050 : BitVec 16).toNat ∈ writableOffsets ∧ (0x010 : BitVec 16).toNat ∈ writableOffsets ∧
    (0x058 : BitVec 16).toNat ∉ writableOffsets ∧ (0x008 : BitVec 16).toNat ∉ writableOffsets := by
  decide
theorem witness_HaltedWriteIgnored : (hostRead fresh 0x068 8).halted = true := by decide
theorem witness_HostReadRule :
    0 < small.bs ∧ 3 < small.bs ∧ (0x100 : BitVec 16).toNat = 0x100 + 8 * 0 ∧
    (0x118 : BitVec 16).toNat = 0x100 + 8 * 3 ∧ fresh.busy = false ∧
    inOutWindow (flying 3).params 0x118 ∧ (flying 3).busy = true ∧
    (∀ m, fresh.params.envMax = some m → m < 2 ^ 32) :=
  ⟨by decide, by decide, by decide, by decide, rfl, ⟨3, by decide⟩, rfl, by simp [fresh, small, State.resetWith]⟩
/-- Just past PARAM1, just below OUT, just past OUT, and an offset between two registers. -/
theorem witness_UnreadableOffsetFaults :
    ¬readableOffset small 0x068 ∧ ¬readableOffset small 0x0F8 ∧ ¬readableOffset small 0x120 ∧
    ¬readableOffset small 0x004 ∧ fresh.faultCode = .none ∧
    (hostRead fresh 0x068 8).halted = true ∧ (hostRead fresh 0x068 8).faultCode ≠ .none := by
  unfold readableOffset inOutWindow
  refine ⟨?_, ?_, ?_, ?_, rfl, by decide, by decide⟩ <;>
    · rintro (h | ⟨i, hi, h⟩)
      · revert h
        decide
      · simp [small] at hi h
        try omega
theorem witness_OperandRegisterReadsBack :
    fresh.halted = false ∧ fresh.busy = false ∧ (0x010 : BitVec 16).toNat ∈ writableOffsets ∧
    (0x010 : BitVec 16) ≠ 0x000 ∧ (0x010 : BitVec 16) ≠ 0x048 ∧
    (0x050 : BitVec 16).toNat ∈ writableOffsets := by decide

/-- Every fault code stands in some state. -/
theorem witness_StatusFields (c : FaultCode) : { fresh with faultCode := c }.faultCode = c := rfl

theorem witness_HostFaultKeepsCommandInFlight :
    { flying 3 with agenda := [.write 0x10050 8 0, .core] }.agenda = .write 0x10050 8 0 :: .core :: [] ∧
    small.base ≤ 0x10050 ∧ 0x10050 - small.base ∈ writableOffsets ∧
    (flying 3).halted = false ∧ (flying 3).faultCode = .none ∧ (flying 3).busy = true ∧
    (flying 3).pending = some 3 ∧ decode 3 = .ok .next := by decide
/-- The core halted by a read of an unmapped offset. -/
def halted : State := hostRead fresh 0x068 8
theorem witness_OnlyResetLeavesHalted :
    halted.halted = true ∧ halted.faultCode ≠ .none ∧ step halted = .next halted ∧
    (∀ rest, halted.agenda ≠ .reset :: rest) ∧
    { halted with agenda := [.reset] }.agenda = .reset :: [] ∧
    step { halted with agenda := [.reset] } = .next ({ halted with agenda := [] } : State).platformReset :=
  ⟨by decide, by decide, rfl, by simp [halted, hostRead, accessReg, regAt, regOffsets, fresh, State.resetWith, List.lookup], rfl, rfl⟩
theorem witness_HaltedIdleCoreIsFrozen :
    halted.halted = true ∧ halted.busy = false ∧ halted.agenda = [] ∧ halted.faultCode ≠ .none := by
  decide
theorem witness_PlatformResetAnyTime :
    { flying 3 with agenda := [.reset, .wait] }.agenda = .reset :: [.wait] := rfl
theorem inv_fresh : fresh.Inv := by
  refine ⟨small_legal, by decide, by decide, by decide, ?_, by decide, by decide, by decide, by decide⟩
  intro sl hsl
  have : sl = .blank := by
    simp only [fresh, State.resetWith, List.mem_replicate] at hsl
    exact hsl.2
  subst this
  exact blank_ok _
theorem witness_StepKeepsInvariant : fresh.Inv ∧ step fresh = .next fresh := ⟨inv_fresh, rfl⟩
theorem witness_GoodStatesNeverStop : fresh.Inv := inv_fresh

/-- The breakpoints of 95_test_vectors.md 1.4: (0, 0), (3, 1), (6, 0.5). -/
def curve : List Breakpoint := [⟨0, .posZero⟩, ⟨3, .one⟩, ⟨6, .ofBits 0x3FE0000000000000⟩]
theorem witness_BufferFilledEqualsOnDemand :
    1 ≤ small.bs ∧ 2 ≤ curve.length ∧ firstFrame curve = 0 ∧ framesOrdered curve = true ∧
    curve.getLast? = some ⟨6, .ofBits 0x3FE0000000000000⟩ ∧ 7 < paddedLen small 6 ∧
    (curve = [] ++ ⟨0, .posZero⟩ :: ⟨3, .one⟩ :: [⟨6, .ofBits 0x3FE0000000000000⟩] ∧
      ((2 : Nat) : Int) < 3 - 0) ∧
    (curve = [⟨0, .posZero⟩] ++ ⟨3, .one⟩ :: ⟨6, .ofBits 0x3FE0000000000000⟩ :: [] ∧
      ((2 : Nat) : Int) < 6 - 3) ∧
    (6 : Int).toNat ≤ 6 := by decide
theorem witness_EnvelopeLengthProperty :
    1 ≤ small.bs ∧ envBuild small curve true = .ok (envMake small curve) := ⟨by decide, by decide⟩
theorem witness_EnvelopeJoinExact :
    [(⟨0, .posZero⟩ : Breakpoint)] ≠ [] ∧ firstFrame curve = 0 ∧ framesOrdered curve = true ∧
    (3 : Int) < 6 ∧ (segStep ⟨3, .one⟩ ⟨6, .ofBits 0x3FE0000000000000⟩).isFinite = true ∧
    F64.one ≠ F64.negZero := by decide +kernel
theorem witness_EnvelopePlayback :
    (envMake small curve).cursor < (envMake small curve).len ∧
    (envMake small []).len ≤ (envMake small []).cursor := by decide
theorem witness_AdsrStepByState :
    Voice.blank.adsr.state = .idle ∧ (adsrStart Voice.blank.adsr).state = .active ∧
    (adsrRelease Voice.blank.adsr).state = .releasing ∧
    [F64.one, .one, .one, .posZero].length = small.bs ∧
    [F64.one, .one, .one, .posZero][small.bs - 1]? = some .posZero := by decide
theorem witness_AdsrReleaseTerminates :
    1 ≤ small.bs ∧ (started.slot 2).voice.adsr.rel.len % small.bs = 0 ∧
    (started.slot 2).voice.adsr.rel.len = 4 ∧
    (started.slot 2).voice.adsr.rel.last = .posZero := by decide +kernel
theorem witness_OscillatorBlock : 0 < small.bs ∧ 3 < small.bs := by decide
theorem witness_FmOscillatorBlock :
    3 < small.bs ∧ (oscStep small Voice.blank.fm.mod).2[3]? = some .posZero := by decide +kernel
theorem witness_VoiceBlock :
    (fmStep small Voice.blank.fm).2[3]? = some .posZero ∧
    (adsrStep small Voice.blank.adsr).2 = .full (zeros small) ∧ (zeros small)[3]? = some .posZero ∧
    (adsrStep small (adsrStart Voice.blank.adsr)).2 = .hold .posZero := by decide +kernel
/-- The value of 1.0 is 1, from its encoding. -/
theorem valueOf_one : valueOf .one = 1 := by
  have he : (F64.one.toBits.extractLsb' 52 11).toNat = 1023 := by decide
  have hf : (F64.one.toBits.extractLsb' 0 52).toNat = 0 := by decide
  unfold valueOf encodedValue
  rw [he, hf, if_neg (by decide), if_neg (by decide)]
  have : (2 : ℚ) ^ 1074 = 2 ^ 52 * 2 ^ 1022 := by rw [← pow_add]
  rw [this]
  have h0 : (2 : ℚ) ^ 1022 ≠ 0 := by positivity
  field_simp
  simpa using this.symm
theorem witness_ArithmeticRoundsToNearestEven : F64.one.isFinite = true ∧ valueOf .one ≠ 0 :=
  ⟨rfl, by rw [valueOf_one]; norm_num⟩
theorem witness_FrameRoundsTiesToEven : F64.one.isFinite = true ∧ 2 ≠ roundTiesEven .one := by
  decide +kernel
theorem witness_InfinityArithmetic : F64.one.isFinite = true ∧ valueOf .one ≠ 0 :=
  witness_ArithmeticRoundsToNearestEven
theorem witness_EqualityByValue :
    F64.one.isFinite = true ∧ (nan0.isNaN = true ∨ F64.one.isNaN = true) := by decide
/-- 2.5 s and 3.5 s at 1 Hz: both ties go to the even frame (R161). -/
theorem test_round_ties : roundTiesEven (.ofBits 0x4004000000000000) = 2 ∧
    roundTiesEven (.ofBits 0x400C000000000000) = 4 := by decide +kernel
/-- 2^53 + 1 lies midway and goes to 2^53; 2^53 + 3 goes to 2^53 + 4 (R14); the greatest finite
value doubled overflows, the least one halved underflows to the even 0 (R300). -/
theorem test_round_nearest :
    add64 (.ofBits 0x4340000000000000) .one = .ofBits 0x4340000000000000 ∧
    (i2f 9007199254740995).toBits = 0x4340000000000002 ∧
    add64 (.ofBits 0x7FEFFFFFFFFFFFFF) (.ofBits 0x7FEFFFFFFFFFFFFF) = .inf false ∧
    mul64 (.ofBits 0x0000000000000001) (.ofBits 0x3FE0000000000000) = .posZero := by
  decide +kernel
theorem witness_NaNPropagates : nan0.isNaN = true ∨ F64.one.isNaN = true := by decide
theorem witness_SignedZeroRules :
    F64.one.isFinite = true ∧ F64.one ≠ .posZero ∧ F64.one ≠ .negZero := by decide
theorem witness_IntegerConversionExact : 2 ^ 53 ≤ 2 ^ 53 ∧ 0 ≤ 2 ^ 53 := by decide
theorem witness_AddingZeroIsExact : F64.one.isFinite = true ∧ F64.one ≠ F64.negZero := by decide

end Sys2Proof.Tests
end

section
/-! SUPPORT. The number a binary64 value stands for, and the arithmetic of R14 as exact rounding. -/

namespace Sys2Proof.Machine

/-! ### The encoding's fields and the value (R75) -/

/-- R75: the three fields of a finite encoding as one number. -/
theorem toBits_fin_toNat (neg : Bool) (e : Fin 2047) (f : BitVec 52) :
    (F64.fin neg e f).toBits.toNat = 2 ^ 52 * e.val + (2 ^ 63 * neg.toNat + f.toNat) := by
  have hneg : neg.toNat ≤ 1 := Bool.toNat_le neg
  simp only [F64.toBits, BitVec.toNat_ofNat]
  omega

theorem sign_ofBits (b : Word64) : (F64.ofBits b).sign = b.msb := by
  unfold F64.ofBits
  simp only
  split
  · rfl
  · split <;> rfl

/-- R75: bit 63 of the encoding is the sign. -/
@[simp] theorem signBit_eq_sign (x : F64) : signBit x = x.sign := by
  calc signBit x = x.toBits.msb := (BitVec.msb_eq_getLsbD_last _).symm
    _ = (F64.ofBits x.toBits).sign := (sign_ofBits _).symm
    _ = x.sign := by rw [F64.ofBits_toBits]

/-- R75: the exponent field of a finite encoding. -/
theorem toBits_fin_exponent (neg : Bool) (e : Fin 2047) (f : BitVec 52) :
    ((F64.fin neg e f).toBits.extractLsb' 52 11).toNat = e.val := by
  have hneg : neg.toNat ≤ 1 := Bool.toNat_le neg
  rw [BitVec.extractLsb'_toNat, toBits_fin_toNat, Nat.shiftRight_eq_div_pow]
  omega

/-- R75: the significand field of a finite encoding. -/
theorem toBits_fin_significand (neg : Bool) (e : Fin 2047) (f : BitVec 52) :
    ((F64.fin neg e f).toBits.extractLsb' 0 52).toNat = f.toNat := by
  rw [BitVec.extractLsb'_toNat, toBits_fin_toNat, Nat.shiftRight_eq_div_pow]
  omega

/-- The last place of a finite encoding is even when its significand field is. -/
theorem toBits_fin_even (neg : Bool) (e : Fin 2047) (f : BitVec 52) (h : f.toNat % 2 = 0) :
    (F64.fin neg e f).toBits.getLsbD 0 = false := by
  rw [BitVec.getLsbD, toBits_fin_toNat, Nat.testBit_zero, decide_eq_false_iff_not]
  omega

/-! ### Signed numbers of units of 2^−1074 -/

theorem unitsPerOne_pos : 0 < unitsPerOne := by
  unfold unitsPerOne
  positivity

theorem unitsPerOne_ne_zero : (unitsPerOne : ℚ) ≠ 0 := by
  exact_mod_cast unitsPerOne_pos.ne'

theorem unitsPerOne_cast : (unitsPerOne : ℚ) = 2 ^ 1074 := by
  rw [unitsPerOne, Nat.cast_pow, Nat.cast_ofNat]

/-- z with the sign `neg` put before it. -/
def withSign (neg : Bool) (z : Int) : Int := if neg then -z else z

theorem signedUnits_eq_withSign (neg : Bool) (e : Fin 2047) (f : BitVec 52) :
    signedUnits neg e f = withSign neg (magUnits e f) := rfl

@[simp] theorem withSign_natAbs (neg : Bool) (z : Int) : (withSign neg z).natAbs = z.natAbs := by
  cases neg <;> simp [withSign]

@[simp] theorem withSign_withSign (neg : Bool) (z : Int) : withSign neg (withSign neg z) = z := by
  cases neg <;> simp [withSign]

@[simp] theorem withSign_zero (neg : Bool) : withSign neg 0 = 0 := by
  cases neg <;> rfl

@[simp] theorem signedUnits_natAbs (neg : Bool) (e : Fin 2047) (f : BitVec 52) :
    (signedUnits neg e f).natAbs = magUnits e f := by
  rw [signedUnits_eq_withSign, withSign_natAbs, Int.natAbs_natCast]

theorem withSign_mul (a b : Bool) (x y : Int) :
    withSign (a != b) (x * y) = withSign a x * withSign b y := by
  cases a <;> cases b <;> simp [withSign]

/-- An integer is its magnitude with its sign. -/
theorem withSign_neg_natAbs (z : Int) : withSign (decide (z < 0)) z.natAbs = z := by
  unfold withSign
  simp only [decide_eq_true_eq]
  split <;> omega

/-- The sign of a number that is not 0 is the one put before it. -/
theorem decide_withSign_neg (neg : Bool) (n : Nat) (h : n ≠ 0) :
    decide (withSign neg n < 0) = neg := by
  cases neg <;> simp [withSign, Nat.pos_of_ne_zero h]

/-- The number read off a finite encoding is the model's count of units of 2^−1074. -/
theorem valueOf_fin (neg : Bool) (e : Fin 2047) (f : BitVec 52) :
    valueOf (.fin neg e f) = signedUnits neg e f / unitsPerOne := by
  have hsign : (F64.fin neg e f).toBits.getLsbD 63 = neg := signBit_eq_sign (.fin neg e f)
  have hexp : (F64.fin neg e f).toBits.extractLsb' 52 11 = 0 ↔ e.val = 0 := by
    rw [← toBits_fin_exponent neg e f]
    exact BitVec.toNat_inj.symm
  unfold valueOf encodedValue
  rw [hsign, toBits_fin_exponent, toBits_fin_significand, unitsPerOne_cast]
  unfold signedUnits magUnits
  congr 1
  simp only [hexp]
  by_cases he : e.val = 0
  · cases neg <;> simp [he]
  · cases neg <;> simp [he] <;> ring

/-- A finite value is 0 exactly when its magnitude is. -/
theorem valueOf_fin_eq_zero (neg : Bool) (e : Fin 2047) (f : BitVec 52) :
    valueOf (.fin neg e f) = 0 ↔ magUnits e f = 0 := by
  rw [valueOf_fin, div_eq_zero_iff, or_iff_left unitsPerOne_ne_zero, Int.cast_eq_zero,
    ← Int.natAbs_eq_zero, signedUnits_natAbs]

/-- The finite values are the encodings with a sign, an exponent and a significand field. -/
theorem isFinite_iff (x : F64) : x.isFinite = true ↔ ∃ s e f, x = .fin s e f := by
  cases x <;> simp [F64.isFinite]

/-! ### Rounding of a signed quotient (R14, R300) -/

/-- The distance from z / A to ± n / (D · A), as a distance of integers. -/
theorem abs_sub_signed_quotient (neg : Bool) (z : Int) (n D A : Nat) (hD : 0 < D) (hA : 0 < A) :
    |(z : ℚ) / A - (withSign neg n : Int) / (D * A)| =
      ((|withSign neg z * D - n| : Int) : ℚ) / (D * A) := by
  have hD' : (0 : ℚ) < D := by exact_mod_cast hD
  have hA' : (0 : ℚ) < A := by exact_mod_cast hA
  have hsub : (z : ℚ) / A - (withSign neg n : Int) / (D * A) =
      ((z * D - withSign neg n : Int) : ℚ) / (D * A) := by
    push_cast
    field_simp
  have habs : |z * D - withSign neg n| = |withSign neg z * D - n| := by
    cases neg
    · rfl
    · rw [← abs_neg]
      simp only [withSign, if_true]
      congr 1
      ring
  rw [hsub, abs_div, abs_of_pos (mul_pos hD' hA'), ← Int.cast_abs, habs]

/-- The exact number that `roundUnits` rounds: ± n / d units of 2^−1074. -/
def signedQuotient (neg : Bool) (n d : Nat) : ℚ := (withSign neg n : Int) / (d * unitsPerOne)

theorem scaled_unitsPerOne_pos (d : Nat) (hd : 0 < d) : (0 : ℚ) < d * unitsPerOne := by
  exact_mod_cast Nat.mul_pos hd unitsPerOne_pos

@[simp] theorem signedQuotient_zero (neg : Bool) (d : Nat) : signedQuotient neg 0 d = 0 := by
  rw [signedQuotient, Nat.cast_zero, withSign_zero, Int.cast_zero, zero_div]

/-- A signed quotient that is not 0 has the sign put before it. -/
theorem signedQuotient_sign (neg : Bool) (n d : Nat) (hd : 0 < d) (hn : n ≠ 0) :
    decide (signedQuotient neg n d < 0) = neg := by
  have hiff : signedQuotient neg n d < 0 ↔ withSign neg n < 0 := by
    rw [signedQuotient, div_lt_iff₀ (scaled_unitsPerOne_pos d hd), zero_mul, Int.cast_lt_zero]
  rw [decide_eq_decide.mpr hiff, decide_withSign_neg neg n hn]

/-- R300: the overflow bound in units of 2^−1074. -/
theorem abs_signedQuotient_lt_iff (neg : Bool) (n d : Nat) (hd : 0 < d) :
    |signedQuotient neg n d| < 2 ^ 1024 - 2 ^ 970 ↔ n < d * 2 ^ 2044 * (2 ^ 54 - 1) := by
  have habs : |((withSign neg n : Int) : ℚ)| = n := by
    cases neg <;> simp [withSign]
  have hbound : ((2 : ℚ) ^ 1024 - 2 ^ 970) * (d * unitsPerOne) =
      ((d * 2 ^ 2044 * (2 ^ 54 - 1) : Nat) : ℚ) := by
    have h1024 : (2 : ℚ) ^ 1024 = 2 ^ 970 * 2 ^ 54 := by rw [← pow_add]
    have h2044 : (2 : ℚ) ^ 2044 = 2 ^ 970 * 2 ^ 1074 := by rw [← pow_add]
    have h54 : ((2 ^ 54 - 1 : Nat) : ℚ) = 2 ^ 54 - 1 := by norm_num
    rw [unitsPerOne_cast, h1024, Nat.cast_mul, Nat.cast_mul, Nat.cast_pow, Nat.cast_ofNat, h2044,
      h54]
    generalize (2 : ℚ) ^ 970 = p
    generalize (2 : ℚ) ^ 1074 = u
    ring
  have hpos := scaled_unitsPerOne_pos d hd
  rw [signedQuotient, abs_div, habs, abs_of_pos hpos, div_lt_iff₀ hpos, hbound, Nat.cast_lt]

/-- R14: the value of the rounded significand is nearest to the exact one among the finite values,
and even at a tie. -/
theorem roundSig_value_nearest (neg : Bool) (n d : Nat) (hd : 0 < d) (e : Fin 2047)
    (f : BitVec 52) (hmag : magUnits e f = roundSig n d * 2 ^ roundScale n d) (y : F64)
    (hy : y.isFinite = true) :
    |valueOf (.fin neg e f) - signedQuotient neg n d| ≤ |valueOf y - signedQuotient neg n d| ∧
    (valueOf y ≠ valueOf (.fin neg e f) →
      |valueOf y - signedQuotient neg n d| = |valueOf (.fin neg e f) - signedQuotient neg n d| →
      roundSig n d % 2 = 0) := by
  obtain ⟨s, e', f', rfl⟩ := (isFinite_iff y).mp hy
  have dist (z : Int) := abs_sub_signed_quotient neg z n d unitsPerOne hd unitsPerOne_pos
  obtain ⟨hle, htie⟩ := roundUnits_nearest n d hd (withSign neg (signedUnits s e' f')) e' f'
    (by rw [withSign_natAbs, signedUnits_natAbs])
  have hself : withSign neg (signedUnits neg e f) =
      ((roundSig n d * 2 ^ roundScale n d : Nat) : Int) := by
    rw [signedUnits_eq_withSign, withSign_withSign, hmag]
  have hpos := scaled_unitsPerOne_pos d hd
  rw [valueOf_fin, valueOf_fin, signedQuotient, dist, dist, hself,
    div_le_div_iff_of_pos_right hpos, Int.cast_le, div_left_inj' hpos.ne', Int.cast_inj]
  refine ⟨hle, fun hne heq => htie (fun h => hne ?_) heq⟩
  rw [← withSign_withSign neg (signedUnits s e' f'), h, ← hself, withSign_withSign]

/-- R14, R300: `roundUnits` rounds ± n / d units to nearest, ties to even. -/
theorem roundsTo_roundUnits (neg : Bool) (n d : Nat) (hd : 0 < d) :
    RoundsTo (signedQuotient neg n d) (roundUnits neg n d) := by
  have hover := (roundUnits_overflow n d hd).trans (abs_signedQuotient_lt_iff neg n d hd).symm
  obtain ⟨hlt, e, f, hr, hmag, heven⟩ | ⟨hge, hr⟩ := roundUnits_parts neg n d hd
  · have near := roundSig_value_nearest neg n d hd e f hmag
    rw [hr]
    exact {
      overflow := iff_of_true rfl (hover.mp hlt)
      infinite := nofun
      nearest := fun _ y hy => (near y hy).1
      ties := fun _ y hy hne heq => toBits_fin_even neg e f (heven.trans ((near y hy).2 hne heq))
      sign := fun hx => by
        have hn : n ≠ 0 := fun h => hx (by rw [h, signedQuotient_zero])
        rw [signBit_eq_sign, signedQuotient_sign neg n d hd hn, F64.sign] }
  · have hn : n ≠ 0 := by
      rintro rfl
      simp at hr
    have hsign := signedQuotient_sign neg n d hd hn
    rw [hr]
    exact {
      overflow := iff_of_false Bool.false_ne_true (fun h => absurd (hover.mpr h) (by omega))
      infinite := fun _ => by rw [hsign]
      nearest := nofun
      ties := nofun
      sign := fun _ => by rw [signBit_eq_sign, hsign, F64.sign] }

/-! ### The primitives as roundings of exact results (R14, R300) -/

theorem valueOf_fin_eq_signedQuotient (neg : Bool) (e : Fin 2047) (f : BitVec 52) :
    valueOf (.fin neg e f) = signedQuotient neg (magUnits e f) 1 := by
  rw [valueOf_fin, signedUnits_eq_withSign, signedQuotient, Nat.cast_one, one_mul]

/-- R14, R303: a sum of units is rounded; an exact 0 is the zero of the sign given. -/
theorem roundsTo_sumUnits (x y : Int) (bothNeg : Bool) :
    RoundsTo ((x : ℚ) / unitsPerOne + y / unitsPerOne) (sumUnits x y bothNeg) := by
  rw [← add_div, ← Int.cast_add]
  unfold sumUnits
  split
  · next h =>
    have hzero := roundsTo_roundUnits bothNeg 0 1 one_pos
    rw [signedQuotient_zero, roundUnits_zero] at hzero
    rwa [h, Int.cast_zero, zero_div]
  · have hsum := roundsTo_roundUnits (decide (x + y < 0)) (x + y).natAbs 1 one_pos
    rwa [signedQuotient, withSign_neg_natAbs, Nat.cast_one, one_mul] at hsum

theorem roundsTo_add64 (a b : F64) (ha : a.isFinite = true) (hb : b.isFinite = true) :
    RoundsTo (valueOf a + valueOf b) (add64 a b) := by
  obtain ⟨sa, ea, fa, rfl⟩ := (isFinite_iff a).mp ha
  obtain ⟨sb, eb, fb, rfl⟩ := (isFinite_iff b).mp hb
  rw [valueOf_fin, valueOf_fin]
  exact roundsTo_sumUnits _ _ _

theorem roundsTo_sub64 (a b : F64) (ha : a.isFinite = true) (hb : b.isFinite = true) :
    RoundsTo (valueOf a - valueOf b) (sub64 a b) := by
  obtain ⟨sa, ea, fa, rfl⟩ := (isFinite_iff a).mp ha
  obtain ⟨sb, eb, fb, rfl⟩ := (isFinite_iff b).mp hb
  have hneg : ((signedUnits (!sb) eb fb : Int) : ℚ) / unitsPerOne =
      -(signedUnits sb eb fb / unitsPerOne) := by
    rw [← neg_div, ← Int.cast_neg]
    congr 2
    cases sb <;> simp [signedUnits]
  rw [valueOf_fin, valueOf_fin, sub_eq_add_neg, ← hneg]
  exact roundsTo_sumUnits _ _ _

/-- The product of two values is a quotient of units of units by units. -/
theorem signedQuotient_mul (sa sb : Bool) (m n : Nat) :
    signedQuotient sa m 1 * signedQuotient sb n 1 =
      signedQuotient (sa != sb) (m * n) unitsPerOne := by
  unfold signedQuotient
  rw [Nat.cast_mul, withSign_mul, Int.cast_mul, Nat.cast_one, one_mul, div_mul_div_comm]

/-- The quotient of two values is one of their units. -/
theorem signedQuotient_div (sa sb : Bool) (m n : Nat) (hn : n ≠ 0) :
    signedQuotient sa m 1 / signedQuotient sb n 1 =
      signedQuotient (sa != sb) (unitsPerOne * m) n := by
  have hU := unitsPerOne_ne_zero
  have hn' : (n : ℚ) ≠ 0 := by exact_mod_cast hn
  unfold signedQuotient
  generalize unitsPerOne = U at *
  cases sa <;> cases sb <;> simp [withSign] <;> field_simp

theorem roundsTo_mul64 (a b : F64) (ha : a.isFinite = true) (hb : b.isFinite = true) :
    RoundsTo (valueOf a * valueOf b) (mul64 a b) := by
  obtain ⟨sa, ea, fa, rfl⟩ := (isFinite_iff a).mp ha
  obtain ⟨sb, eb, fb, rfl⟩ := (isFinite_iff b).mp hb
  rw [valueOf_fin_eq_signedQuotient, valueOf_fin_eq_signedQuotient, signedQuotient_mul]
  exact roundsTo_roundUnits _ _ _ unitsPerOne_pos

theorem roundsTo_div64 (a b : F64) (ha : a.isFinite = true) (hb : b.isFinite = true)
    (hne : valueOf b ≠ 0) : RoundsTo (valueOf a / valueOf b) (div64 a b) := by
  obtain ⟨sa, ea, fa, rfl⟩ := (isFinite_iff a).mp ha
  obtain ⟨sb, eb, fb, rfl⟩ := (isFinite_iff b).mp hb
  have hmag : magUnits eb fb ≠ 0 := fun h => hne ((valueOf_fin_eq_zero sb eb fb).mpr h)
  have hdiv : div64 (.fin sa ea fa) (.fin sb eb fb) =
      roundUnits (sa != sb) (unitsPerOne * magUnits ea fa) (magUnits eb fb) := if_neg hmag
  rw [valueOf_fin_eq_signedQuotient, valueOf_fin_eq_signedQuotient, signedQuotient_div _ _ _ _ hmag,
    hdiv]
  exact roundsTo_roundUnits _ _ _ (Nat.pos_of_ne_zero hmag)

/-- R304: a count is that many times the units of 1. -/
theorem roundsTo_i2f (n : Nat) : RoundsTo (n : ℚ) (i2f n) := by
  have hexact : signedQuotient false (unitsPerOne * n) 1 = n := by
    rw [signedQuotient, Nat.cast_one, one_mul]
    calc (((unitsPerOne * n : Nat) : Int) : ℚ) / unitsPerOne
        = unitsPerOne * n / unitsPerOne := by rw [Int.cast_natCast, Nat.cast_mul]
      _ = n := mul_div_cancel_left₀ _ unitsPerOne_ne_zero
  have h := roundsTo_roundUnits false (unitsPerOne * n) 1 one_pos
  rwa [hexact] at h

/-- Settles O50: each primitive is `roundUnits` of the exact result in units of 2^−1074. -/
theorem arithmeticRoundsToNearestEven : Obligations.ArithmeticRoundsToNearestEven :=
  ⟨fun a b ha hb => ⟨roundsTo_add64 a b ha hb, roundsTo_sub64 a b ha hb, roundsTo_mul64 a b ha hb,
    roundsTo_div64 a b ha hb⟩, roundsTo_i2f⟩

/-! ### Rounding to an integer, equality, zeros and infinities -/

/-- R14, R161: roundTiesEven of a finite value is the rounded quotient of its units. -/
theorem roundTiesEven_fin (neg : Bool) (e : Fin 2047) (f : BitVec 52) :
    roundTiesEven (.fin neg e f) = withSign neg (divRoundEven (magUnits e f) unitsPerOne) := rfl

/-- Settles O51: the quotient of units is rounded to a nearest integer, an even one at a tie. -/
theorem frameRoundsTiesToEven : Obligations.FrameRoundsTiesToEven := by
  intro x z hx
  obtain ⟨neg, e, f, rfl⟩ := (isFinite_iff x).mp hx
  have hpos : (0 : ℚ) < unitsPerOne := by exact_mod_cast unitsPerOne_pos
  have dist (w : Int) : |(w : ℚ) - valueOf (.fin neg e f)| =
      ((|withSign neg w * unitsPerOne - magUnits e f| : Int) : ℚ) / unitsPerOne := by
    have h := abs_sub_signed_quotient neg w (magUnits e f) unitsPerOne 1 unitsPerOne_pos one_pos
    rwa [Nat.cast_one, div_one, mul_one, ← signedUnits_eq_withSign, ← valueOf_fin] at h
  obtain ⟨hle, htie⟩ :=
    divRoundEven_nearest (magUnits e f) unitsPerOne unitsPerOne_pos (withSign neg z)
  rw [dist, dist, roundTiesEven_fin, withSign_withSign, div_le_div_iff_of_pos_right hpos,
    Int.cast_le, div_left_inj' hpos.ne', Int.cast_inj]
  refine ⟨hle, fun hne heq => ?_⟩
  have heven := htie (fun h => hne (by rw [← h, withSign_withSign])) heq
  unfold withSign
  split <;> omega

/-- R14: finite values are equal exactly when they stand for the same number. -/
theorem eq64_fin_iff (a b : F64) (ha : a.isFinite = true) (hb : b.isFinite = true) :
    eq64 a b = true ↔ valueOf a = valueOf b := by
  obtain ⟨sa, ea, fa, rfl⟩ := (isFinite_iff a).mp ha
  obtain ⟨sb, eb, fb, rfl⟩ := (isFinite_iff b).mp hb
  rw [valueOf_fin, valueOf_fin, div_left_inj' unitsPerOne_ne_zero, Int.cast_inj]
  exact beq_iff_eq

/-- R14, R302: a NaN equals nothing. -/
theorem eq64_nan (a b : F64) (h : a.isNaN = true ∨ b.isNaN = true) : eq64 a b = false := by
  cases a <;> cases b <;> simp [F64.isNaN, eq64] at h ⊢

/-- Settles O53: finite values are compared by their units, the rest by the kind of operand. -/
theorem equalityByValue : Obligations.EqualityByValue := by
  refine ⟨eq64_fin_iff, fun _ _ => beq_iff_eq, fun s x hx => ?_, eq64_nan⟩
  obtain ⟨_, _, _, rfl⟩ := (isFinite_iff x).mp hx
  exact ⟨rfl, rfl⟩

theorem signedUnits_zero (s : Bool) : signedUnits s 0 0 = 0 := by
  rw [signedUnits_eq_withSign, magUnits_zero, Nat.cast_zero, withSign_zero]

/-- Settles O57: the sum has the units of x, and rounding those gives x back. -/
theorem addingZeroIsExact : Obligations.AddingZeroIsExact := by
  intro s x hx hne
  obtain ⟨neg, e, f, rfl⟩ := (isFinite_iff x).mp hx
  have hsum : add64 (.zero s) (.fin neg e f) = sumUnits 0 (signedUnits neg e f) (s && neg) := by
    rw [← signedUnits_zero s]
    rfl
  rw [hsum, sumUnits, zero_add, signedUnits_natAbs]
  by_cases hmag : magUnits e f = 0
  · obtain ⟨rfl, rfl⟩ := (magUnits_eq_zero e f).mp hmag
    have hpos : neg = false := by
      cases neg
      · rfl
      · exact absurd rfl hne
    rw [hpos, signedUnits_zero, if_pos rfl, Bool.and_false]
  · have hnz : signedUnits neg e f ≠ 0 := by
      rwa [← Int.natAbs_ne_zero, signedUnits_natAbs]
    have hexact := roundUnits_exact neg e f 1 one_pos
    rw [mul_one] at hexact
    rw [if_neg hnz, signedUnits_eq_withSign, decide_withSign_neg neg _ hmag, hexact]

/-- A value that is not 0 divided by a zero is an infinity of the quotient's sign (log 19). -/
theorem div64_fin_zero (neg t : Bool) (e : Fin 2047) (f : BitVec 52) (h : magUnits e f ≠ 0) :
    div64 (.fin neg e f) (.zero t) = .inf (neg != t) := by
  unfold div64
  simp only
  rw [if_pos magUnits_zero, if_neg h]

/-- Settles O52: each clause is the branch of the primitive for that kind of operands. -/
theorem infinityArithmetic : Obligations.InfinityArithmetic := by
  intro s t x hx
  obtain ⟨neg, e, f, rfl⟩ := (isFinite_iff x).mp hx
  rw [signBit_eq_sign, Ne, valueOf_fin_eq_zero]
  exact ⟨rfl, rfl, if_pos rfl, rfl, rfl, if_pos (Bool.not_not s).symm, rfl, rfl, rfl,
    fun hmag => ⟨if_neg hmag, if_neg hmag, div64_fin_zero neg t e f hmag⟩⟩

end Sys2Proof.Machine
end

section
/-! SUPPORT. What a command can do, said once for all seven, and what every command leaves
unchanged. -/

namespace Sys2Proof.Machine

/-- R213, R214, R255, R262–R264: the edits NOTE_OFF and the SET commands make to a slot; a SET
command writes no sample counter. -/
inductive NoteEdit (sl : Slot) : Slot → Prop
  | release : NoteEdit sl (noteOffSlot sl)
  | oscillator (fm : FmOsc) (t : fm.t = sl.voice.fm.t) (mod_t : fm.mod.t = sl.voice.fm.mod.t) :
      NoteEdit sl { sl with voice := { sl.voice with fm := fm } }

/-- R240, R250–R264: the states a command can leave. -/
inductive CommandResult (s : State) : Instr → State → Prop
  | fault (n : Nat) (c : FaultCode) (failed : noteOnAdsr s n = .error c) :
      CommandResult s (.noteOn n) (s.raiseCommand c n 1)
  | install (n : Nat) (a : Adsr) (built : noteOnAdsr s n = .ok a) :
      CommandResult s (.noteOn n)
        (s.setSlot n (noteOnSlot s.params (s.slot n) (noteOnVoice s n a)))
  | edit (i : Instr) (sl : Slot) (edited : NoteEdit (s.slot i.note) sl) :
      CommandResult s i (s.setSlot i.note sl)
  | ignore (i : Instr) : CommandResult s i s
  | mix : CommandResult s .next
      { s with
        slots := (mixLoop s.params s.params.mixOrder s.slots (zeros s.params)).1
        out := (mixLoop s.params s.params.mixOrder s.slots (zeros s.params)).2 }
  | silence : CommandResult s .stop { s with slots := s.slots.map stopSlot }

/-- R262–R264: a SET command edits the oscillator of its slot, or does nothing. -/
theorem updateMapped_result (s : State) (i : Instr) (f : FmOsc → FmOsc)
    (ht : ∀ fm, (f fm).t = fm.t) (hmod : ∀ fm, (f fm).mod.t = fm.mod.t) :
    CommandResult s i (updateMapped i.note (fun v => { v with fm := f v.fm }) s) := by
  rcases updateMapped_cases i.note (fun v => { v with fm := f v.fm }) s with ⟨-, -, h⟩ | ⟨-, h⟩
  · rw [h]
    exact .edit i _ (.oscillator _ (ht _) (hmod _))
  · rw [h]
    exact .ignore i

/-- Every command answers one of the states of `CommandResult`. -/
theorem exec_result (i : Instr) (s : State) : ∃ t, exec i s = .next t ∧ CommandResult s i t := by
  cases i with
  | noteOn n =>
    rcases execNoteOn_cases n s with ⟨c, hc, h⟩ | ⟨a, ha, h⟩
    · exact ⟨_, h, .fault n c hc⟩
    · exact ⟨_, h, .install n a ha⟩
  | noteOff n =>
    rcases execNoteOff_cases n s with ⟨-, h⟩ | ⟨-, h⟩
    · exact ⟨_, h, .edit (.noteOff n) _ .release⟩
    · exact ⟨_, h, .ignore _⟩
  | next => exact ⟨_, rfl, .mix⟩
  | stop => exact ⟨_, rfl, .silence⟩
  | setAmp n =>
    exact ⟨_, rfl, updateMapped_result s (.setAmp n) (setAmp · s.arg) (fun _ => rfl) fun _ => rfl⟩
  | setFm n =>
    exact ⟨_, rfl, updateMapped_result s (.setFm n) (setFm · s.arg) (fun _ => rfl) fun _ => rfl⟩
  | setBeta n =>
    exact ⟨_, rfl, updateMapped_result s (.setBeta n) (setBeta · s.arg) (fun _ => rfl) fun _ => rfl⟩

/-- Settles O22: each state a command can leave changes only the slots, OUT (NEXT) or the fault
record (NOTE_ON). -/
theorem commandsFrame : Obligations.CommandsFrame := by
  intro i s
  obtain ⟨t, ht, hr⟩ := exec_result i s
  refine ⟨t, ht, ?_⟩
  cases hr with
  | fault n c => simp
  | install n a => simp
  | edit i sl => simp
  | ignore i => simp
  | mix => simp [mixLoop_slots_length]
  | silence => simp

/-! ### The envelope memory (R42, R71, R335) -/

/-- R42: what an envelope holds in memory: its buffer (given by its breakpoints, log 5), its length
and its last value. -/
def Envelope.memory (e : Envelope) : List Breakpoint × Nat × F64 := (e.points, e.len, e.last)

/-- R71: the envelope memory of a slot. -/
def Slot.envMemory (sl : Slot) : (List Breakpoint × Nat × F64) × List Breakpoint × Nat × F64 :=
  (sl.voice.adsr.ad.memory, sl.voice.adsr.rel.memory)

@[simp] theorem envStep_memory (P : Params) (e : Envelope) : (envStep P e).1.memory = e.memory := by
  obtain ⟨hpoints, hlen, hlast⟩ := envStep_frame P e
  simp [Envelope.memory, hpoints, hlen, hlast]

/-- R193–R195: an ADSR step steps an envelope or none. -/
theorem adsrStep_memory (P : Params) (a : Adsr) :
    (adsrStep P a).1.ad.memory = a.ad.memory ∧ (adsrStep P a).1.rel.memory = a.rel.memory := by
  unfold adsrStep
  cases a.state with
  | idle => exact ⟨rfl, rfl⟩
  | active => exact ⟨envStep_memory P a.ad, rfl⟩
  | releasing => exact ⟨rfl, envStep_memory P a.rel⟩

@[simp] theorem visitSlot_envMemory (P : Params) (sl : Slot) :
    (visitSlot P sl).1.envMemory = sl.envMemory := by
  rcases visitSlot_cases P sl with ⟨-, h⟩ | ⟨-, -, h⟩ | ⟨-, -, h⟩ | ⟨-, -, h⟩
  · rw [h]
  · rw [h]
    rfl
  · rw [h]
    rfl
  · obtain ⟨had, hrel⟩ := adsrStep_memory P sl.voice.adsr
    rw [h]
    exact Prod.ext had hrel

/-- R71: NOTE_OFF and the SET commands write no envelope memory. -/
theorem NoteEdit.envMemory {sl sl' : Slot} (h : NoteEdit sl sl') :
    sl'.envMemory = sl.envMemory := by
  cases h with
  | release =>
    unfold noteOffSlot
    split <;> rfl
  | oscillator fm => rfl

/-- A slot written back with the envelope memory it had leaves that of the slot file. -/
theorem map_envMemory_set (slots : List Slot) (n : Nat) (v : Slot)
    (h : v.envMemory = (slots.getD n .blank).envMemory) :
    (slots.set n v).map Slot.envMemory = slots.map Slot.envMemory := by
  rw [List.map_set, h]
  by_cases hn : n < slots.length
  · rw [List.getD_eq_getElem _ _ hn,
      ← List.getElem_map Slot.envMemory (h := by rwa [List.length_map]), List.set_getElem_self]
  · exact List.set_eq_of_length_le (by rw [List.length_map]; omega)

/-- R71: NEXT's loop writes no envelope memory. -/
theorem mixLoop_envMemory (P : Params) (ks : List Nat) (slots : List Slot) (acc : List F64) :
    (mixLoop P ks slots acc).1.map Slot.envMemory = slots.map Slot.envMemory := by
  induction ks generalizing slots acc with
  | nil => rfl
  | cons k ks ih => rw [mixLoop_cons, ih, map_envMemory_set _ _ _ (visitSlot_envMemory P _)]

/-- R71: the envelope memory of the slot file after a command other than NOTE_ON. -/
theorem CommandResult.envMemory {s t : State} {i : Instr} (h : CommandResult s i t)
    (hi : ∀ n, i ≠ .noteOn n) : t.slots.map Slot.envMemory = s.slots.map Slot.envMemory := by
  cases h with
  | fault n => exact absurd rfl (hi n)
  | install n => exact absurd rfl (hi n)
  | edit i sl edited => exact map_envMemory_set _ _ _ edited.envMemory
  | ignore => rfl
  | mix => exact mixLoop_envMemory ..
  | silence => simp [stopSlot, Slot.envMemory]

/-- The envelope memory of slot k is entry k of the slot file's. -/
theorem slot_envMemory (s : State) (k : Nat) :
    (s.slot k).envMemory = (s.slots.map Slot.envMemory).getD k Slot.blank.envMemory :=
  (List.getD_map ..).symm

/-- Settles O24: no command but NOTE_ON changes the envelope memory of the slot file. -/
theorem onlyNoteOnWritesEnvelopes : Obligations.OnlyNoteOnWritesEnvelopes := by
  intro i s hi
  obtain ⟨t, ht, hr⟩ := exec_result i s
  refine ⟨t, ht, fun k => ?_⟩
  have hk : (t.slot k).envMemory = (s.slot k).envMemory := by
    rw [slot_envMemory, slot_envMemory, hr.envMemory hi]
  simpa [Slot.envMemory, Envelope.memory, and_assoc] using hk

end Sys2Proof.Machine
end

section
/-! SUPPORT. The invariant of Safety.lean: it holds after reset, and each update of the state,
hence each command, access and step, keeps it. -/

namespace Sys2Proof.Machine

/-! ### Reset (R50, R320) -/

/-- R75: +0.0 is the encoding 0. -/
theorem toBits_posZero : F64.posZero.toBits = 0 := by decide

/-- R50: every slot of the reset slot file is blank. -/
theorem eq_blank_of_mem_resetWith {P : Params} {sl : Slot} (h : sl ∈ (State.resetWith P).slots) :
    sl = .blank :=
  List.eq_of_mem_replicate h

/-- R50: every sample of OUT is +0.0 at reset. -/
theorem eq_posZero_of_mem_resetWith {P : Params} {x : F64} (h : x ∈ (State.resetWith P).out) :
    x = .posZero :=
  List.eq_of_mem_replicate h

/-- Settles O36: the values `State.resetWith` writes. -/
theorem resetValues : Obligations.ResetValues := by
  refine ⟨rfl, rfl, toBits_posZero, toBits_posZero, toBits_posZero, toBits_posZero, toBits_posZero,
    toBits_posZero, toBits_posZero, toBits_posZero, rfl, rfl, rfl, rfl, rfl, rfl, rfl,
    List.length_replicate, fun _ => eq_posZero_of_mem_resetWith, List.length_replicate,
    fun sl hsl => ?_⟩
  rw [eq_blank_of_mem_resetWith hsl]
  exact ⟨rfl, rfl⟩

/-- R50: a core with legal parameters is good right after reset. -/
theorem State.Inv.resetWith {P : Params} (hP : P.Legal) : (State.resetWith P).Inv where
  params_legal := hP
  out_length := List.length_replicate
  out_no_negZero x hx := by
    rw [eq_posZero_of_mem_resetWith hx]
    decide
  slots_length := List.length_replicate
  slots_ok sl hsl := by
    rw [eq_blank_of_mem_resetWith hsl]
    exact blank_ok P
  busy_iff_pending := rfl
  halted_iff_fault := by simp [State.resetWith]
  clean_record _ := ⟨rfl, rfl, rfl⟩
  flags_reserved := by simp [State.resetWith]

/-- Settles O38: the parameters at reset are legal. -/
theorem resetMeetsInvariant : Obligations.ResetMeetsInvariant :=
  .resetWith Config.params_legal

/-! ### The updates of the state -/

section
variable {s : State} (h : s.Inv)
include h

theorem State.Inv.platformReset : s.platformReset.Inv := { State.Inv.resetWith h.params_legal with }

theorem State.Inv.setAgenda (es : List Event) : (s.setAgenda es).Inv := { h with }

theorem State.Inv.answer (v : Word64) : (s.answer v).Inv := { h with }

theorem State.Inv.answerAny : s.answerAny.Inv := { h with }

theorem State.Inv.finishCommand : s.finishCommand.Inv := { h with busy_iff_pending := rfl }

/-- R285: the fault action keeps HALTED = 1 exactly with a fault. -/
theorem State.Inv.raise {c : FaultCode} (hc : c ≠ .none) (note : BitVec 8) (op : BitVec 4)
    (off : BitVec 16) : (s.raise c note op off).Inv := by
  have hcode : (s.raise c note op off).faultCode ≠ .none := by
    rw [State.raise_faultCode]
    split
    · exact hc
    · assumption
  exact { h with
    halted_iff_fault := iff_of_true rfl hcode
    clean_record := fun h0 => absurd h0 hcode }

/-- R73: a register write sets BUSY with PENDING and ignores the reserved bits of CFG_FLAGS. -/
theorem State.Inv.writeReg (r : HostReg) (v : Word64) : (s.writeReg r v).Inv := by
  cases r with
  | cmd => exact { h with busy_iff_pending := rfl }
  | cfgFlags =>
    exact { h with flags_reserved := by simp [State.writeReg, flagsOfWrite, BitVec.and_assoc] }
  | _ => exact { h with }

theorem State.Inv.slot_ok (n : Nat) : (s.slot n).Ok s.params :=
  getD_ok s.params s.slots h.slots_ok n

/-- R36: a good slot may be put in any place. -/
theorem State.Inv.setSlot (n : Nat) {v : Slot} (hv : v.Ok s.params) : (s.setSlot n v).Inv :=
  { h with
    slots_length := (List.length_set ..).trans h.slots_length
    slots_ok := set_ok s.params s.slots n v h.slots_ok hv }

end

/-! ### The commands (R240) -/

theorem NoteEdit.ok {P : Params} {sl sl' : Slot} (he : NoteEdit sl sl') (h : sl.Ok P) :
    sl'.Ok P := by
  cases he with
  | release => exact noteOffSlot_ok P sl h
  | oscillator fm ht hmod =>
    refine ⟨fun hm => ?_, fun htail => ?_⟩
    · have hv := h.voice_ok hm
      exact { hv with counters := ht.trans (hv.counters.trans hmod.symm) }
    · have htl := h.tail_ok htail
      exact { htl with fresh_t := ht.trans htl.fresh_t }

theorem stopSlot_ok (P : Params) (sl : Slot) : (stopSlot sl).Ok P := ⟨nofun, nofun⟩

/-- R281: a failing check of NOTE_ON has a code other than 0x00. -/
theorem noteOnAdsr_error_ne_none {s : State} {n : Nat} {c : FaultCode}
    (h : noteOnAdsr s n = .error c) : c ≠ .none := by
  rcases noteOnAdsr_cases s n with ⟨-, hr⟩ | ⟨-, hr⟩ <;> rw [hr] at h
  · cases h
    decide
  · exact adsrBuild_error_ne_none _ _ _ _ _ c h

/-- R250: the slot an accepted NOTE_ON leaves is good. -/
theorem noteOnSlot_built_ok {s : State} (h : s.Inv) {n : Nat} {a : Adsr}
    (ha : noteOnAdsr s n = .ok a) :
    (noteOnSlot s.params (s.slot n) (noteOnVoice s n a)).Ok s.params := by
  have hb : 1 ≤ s.params.bs := h.params_legal.2.1.1
  rcases noteOnAdsr_cases s n with ⟨-, hr⟩ | ⟨-, hr⟩ <;> rw [hr] at ha
  · cases ha
  · obtain ⟨had, hrel, hlast, ha_last, -, hcursor⟩ := adsrBuild_ok s.params hb _ _ _ _ a ha
    exact noteOnSlot_ok _ _ _ (h.slot_ok n) (voiceBuild_ok _ _ _ _ _ a had hrel hlast) rfl rfl
      ha_last rfl hcursor

/-- R257, R258: a visit's block keeps the mix BS samples long. -/
theorem mixIn_length {P : Params} {acc : List F64} {b : Option (List F64)}
    (hacc : acc.length = P.bs) (hb : ∀ v, b = some v → v.length = P.bs) :
    (mixIn acc b).length = P.bs := by
  cases b with
  | none => exact hacc
  | some v => rw [mixIn, addBlocks_length, hacc, hb v rfl, min_self]

/-- R303: a visit's block brings no −0.0 into the mix. -/
theorem mixIn_no_negZero {acc : List F64} (b : Option (List F64))
    (hacc : ∀ x ∈ acc, x ≠ F64.negZero) : ∀ x ∈ mixIn acc b, x ≠ F64.negZero := by
  cases b with
  | none => exact hacc
  | some v => exact addBlocks_no_negZero acc v hacc

/-- R257: what NEXT's loop keeps of the slot file and of the mix. -/
theorem mixLoop_ok (P : Params) (ks : List Nat) (slots : List Slot) (acc : List F64)
    (hslots : ∀ sl ∈ slots, sl.Ok P) (hlen : acc.length = P.bs)
    (hneg : ∀ x ∈ acc, x ≠ F64.negZero) :
    (∀ sl ∈ (mixLoop P ks slots acc).1, sl.Ok P) ∧ (mixLoop P ks slots acc).2.length = P.bs ∧
      ∀ x ∈ (mixLoop P ks slots acc).2, x ≠ F64.negZero := by
  induction ks generalizing slots acc with
  | nil => exact ⟨hslots, hlen, hneg⟩
  | cons k ks ih =>
    have hk := getD_ok P slots hslots k
    rw [mixLoop_cons]
    exact ih _ _ (set_ok P slots k _ hslots (visitSlot_ok P _ hk))
      (mixIn_length hlen (visitSlot_length P _ hk)) (mixIn_no_negZero _ hneg)

theorem zeros_no_negZero (P : Params) : ∀ x ∈ zeros P, x ≠ F64.negZero := by
  intro x hx
  rw [List.eq_of_mem_replicate hx]
  decide

/-- Every state a command can leave is good. -/
theorem CommandResult.inv {s t : State} {i : Instr} (hr : CommandResult s i t) (h : s.Inv) :
    t.Inv := by
  cases hr with
  | fault n c failed => exact h.raise (noteOnAdsr_error_ne_none failed) _ _ _
  | install n a built => exact h.setSlot n (noteOnSlot_built_ok h built)
  | edit _ sl edited => exact h.setSlot _ (edited.ok (h.slot_ok _))
  | ignore => exact h
  | mix =>
    obtain ⟨hslots, hlen, hneg⟩ := mixLoop_ok s.params s.params.mixOrder s.slots (zeros s.params)
      h.slots_ok (zeros_length _) (zeros_no_negZero _)
    exact { h with
      out_length := hlen
      out_no_negZero := hneg
      slots_length := (mixLoop_slots_length ..).trans h.slots_length
      slots_ok := hslots }
  | silence =>
    exact { h with
      slots_length := (List.length_map _).trans h.slots_length
      slots_ok := List.forall_mem_map.mpr fun sl _ => stopSlot_ok s.params sl }

/-! ### The two agents and the step (R20) -/

section
variable {s t : State} (h : s.Inv)
include h

theorem State.Inv.runCommand {w : Word64} (hr : runCommand s w = .next t) : t.Inv := by
  rcases runCommand_cases s w with ⟨i, -, he⟩ | ⟨-, -, he⟩
  · obtain ⟨u, hu, hres⟩ := exec_result i s
    cases hr.symm.trans (he.trans hu)
    exact hres.inv h
  · cases hr.symm.trans he
    exact h.raise (by decide) _ _ _

/-- R240: the CORE's turn keeps the invariant. -/
theorem State.Inv.coreTurn (hc : coreTurn s = .next t) : t.Inv := by
  unfold Machine.coreTurn at hc
  split at hc
  · cases hp : s.pending with
    | none => simp [complete, hp] at hc
    | some w =>
      obtain ⟨u, hu, hd⟩ := complete_some s w hp
      cases hc.symm.trans hd
      exact (h.runCommand hu).finishCommand
  · cases hc
    exact h

theorem State.Inv.hostRead (off : BitVec 16) (width : Nat) : (hostRead s off width).Inv := by
  rcases hostRead_cases s off width with ⟨-, hr⟩ | ⟨-, -, hr⟩ | ⟨r, -, -, hr⟩ <;> rw [hr]
  · exact (h.raise (by decide) _ _ _).answerAny
  · exact h.answerAny
  · exact h.answer _

theorem State.Inv.hostWrite (off : BitVec 16) (width : Nat) (v : Word64) :
    (hostWrite s off width v).Inv := by
  rcases hostWrite_cases s off width v with
    ⟨-, hw⟩ | ⟨-, -, hw⟩ | ⟨-, -, hw⟩ | ⟨-, -, -, hw⟩ | ⟨-, -, r, -, -, hw⟩ <;> rw [hw]
  · exact h
  · exact h.raise (by decide) _ _ _
  · exact h.raise (by decide) _ _ _
  · exact h.raise (by decide) _ _ _
  · exact h.writeReg r v

theorem State.Inv.busRead (addr width : Nat) : (busRead s addr width).Inv := by
  unfold Machine.busRead
  split
  · exact h.answerAny
  · exact h.hostRead _ _

theorem State.Inv.busWrite (addr width : Nat) (v : Word64) : (busWrite s addr width v).Inv := by
  unfold Machine.busWrite
  split
  · exact h
  · exact h.hostWrite _ _ _

theorem State.Inv.waitPoll (rest : List Event) : (waitPoll s rest).Inv := by
  unfold Machine.waitPoll
  split <;> exact (h.hostRead _ _).setAgenda _

end

/-- Settles O39: each kind of step is an update that keeps the invariant. -/
theorem stepKeepsInvariant : Obligations.StepKeepsInvariant := by
  intro s t h ht
  rcases step_cases s with ⟨-, hs⟩ | ⟨rest, -, hs⟩ | ⟨a, w, rest, -, hs⟩ |
    ⟨a, w, v, rest, -, hs⟩ | ⟨rest, -, hs⟩ | ⟨rest, -, hs⟩ <;> rw [hs] at ht
  · exact h.coreTurn ht
  · exact (h.setAgenda rest).coreTurn ht
  · cases ht
    exact (h.setAgenda rest).busRead a w
  · cases ht
    exact (h.setAgenda rest).busWrite a w v
  · cases ht
    exact h.waitPoll rest
  · cases ht
    exact (h.setAgenda rest).platformReset

end Sys2Proof.Machine
end

section
/-! SUPPORT. What the host reads: STATUS's fields, operand registers, and no slot. -/

namespace Sys2Proof.Machine

/-! ### Reading back a register (R73, R74) -/

/-- R73, R75: a writable register holds all 64 bits written to it, CFG_FLAGS aside. -/
theorem State.readReg_writeReg_same (s : State) (r : HostReg) (v : Word64)
    (hw : r.writable = true) (hf : r ≠ .cfgFlags) : (s.writeReg r v).readReg r = v := by
  cases r with
  | cmd => rfl
  | status => cases hw
  | cfgFlags => exact absurd rfl hf
  | param0 => cases hw
  | param1 => cases hw
  | out i => cases hw
  | _ => exact F64.toBits_ofBits v

/-- R104: the table lists every writable offset with a writable register. -/
theorem regOffsets_lookup_writable : ∀ n ∈ writableOffsets, n < 0x100 ∧ n % 8 = 0 ∧
    ∃ r, regOffsets.lookup n = some r ∧ r.writable = true ∧ (r = .cfgFlags → n = 0x048) := by
  simp [writableOffsets, regOffsets, List.lookup, HostReg.writable]

/-- R72, R104: an access at a writable offset reaches a writable register. -/
theorem accessReg_writable (P : Params) (off : BitVec 16) (h : off.toNat ∈ writableOffsets) :
    ∃ r, accessReg P off 8 = some r ∧ r.writable = true ∧ (r = .cfgFlags → off = 0x048) := by
  obtain ⟨hlow, halign, r, hr, hw, hf⟩ := regOffsets_lookup_writable off.toNat h
  refine ⟨r, ?_, hw, fun h => BitVec.eq_of_toNat_eq (hf h)⟩
  rw [accessReg_low P off hlow, if_pos halign, hr]

/-- R73: a write that passes its checks writes its register. -/
theorem hostWrite_eq_writeReg (s : State) (off : BitVec 16) (width : Nat) (v : Word64) (r : HostReg)
    (hh : s.halted = false) (hb : s.busy = false) (hr : accessReg s.params off width = some r)
    (hw : r.writable = true) : hostWrite s off width v = s.writeReg r v := by
  simp [hostWrite, hh, hb, hr, hw]

/-- R74: a read of a register outside the OUT window answers it. -/
theorem hostRead_eq_answer (s : State) (off : BitVec 16) (width : Nat) (r : HostReg)
    (hr : accessReg s.params off width = some r) (hout : ∀ i, r ≠ .out i) :
    hostRead s off width = s.answer (s.readReg r) := by
  cases r with
  | out i => exact absurd rfl (hout i)
  | _ => simp [hostRead, hr, readAnswer]

theorem HostReg.ne_out_of_writable {r : HostReg} (hw : r.writable = true) (i : Nat) :
    r ≠ .out i := by
  rintro rfl
  cases hw

/-- Settles O30: the write reaches a register that keeps all 64 bits, and the read answers it. -/
theorem operandRegisterReadsBack : Obligations.OperandRegisterReadsBack := by
  intro s off v hh hb hoff _ hflags
  obtain ⟨r, hr, hw, hf⟩ := accessReg_writable s.params off hoff
  have hparams : (s.writeReg r v).params = s.params := (State.writeReg_frame s r v).1
  rw [hostWrite_eq_writeReg s off 8 v r hh hb hr hw,
    hostRead_eq_answer _ off 8 r (hparams ▸ hr) (HostReg.ne_out_of_writable hw), State.answer_rdata,
    State.readReg_writeReg_same s r v hw (hflags ∘ hf)]

/-! ### The slots are out of the host's sight (R51) -/

/-- R51: no register shows a slot. -/
theorem readReg_withSlots (s : State) (slots : List Slot) (r : HostReg) :
    { s with slots := slots }.readReg r = s.readReg r := by
  cases r <;> rfl

theorem readAnswer_withSlots (s : State) (slots : List Slot) (r : HostReg) :
    readAnswer { s with slots := slots } r = { readAnswer s r with slots := slots } := by
  cases r with
  | out i =>
    simp only [readAnswer]
    split <;> rfl
  | _ => rfl

theorem hostRead_withSlots (s : State) (slots : List Slot) (off : BitVec 16) (width : Nat) :
    hostRead { s with slots := slots } off width =
      { hostRead s off width with slots := slots } := by
  unfold hostRead
  cases accessReg s.params off width with
  | none => rfl
  | some r => exact readAnswer_withSlots s slots r

theorem hostRead_slots (s : State) (off : BitVec 16) (width : Nat) :
    (hostRead s off width).slots = s.slots := by
  rcases hostRead_cases s off width with ⟨-, h⟩ | ⟨-, -, h⟩ | ⟨r, -, -, h⟩ <;> simp [h]

/-- Settles O31: whether refused, free or a register, the answer is the same for any slots. -/
theorem hostReadsHideSlots : Obligations.HostReadsHideSlots := fun s slots off width =>
  ⟨hostRead_withSlots s slots off width, hostRead_slots s off width⟩

/-! ### STATUS (R35) -/

/-- The number of two words put side by side. -/
theorem toNat_append_eq_add {m n : Nat} (x : BitVec m) (y : BitVec n) :
    (x ++ y).toNat = x.toNat * 2 ^ n + y.toNat := by
  rw [BitVec.toNat_append, ← Nat.shiftLeft_add_eq_or_of_lt y.isLt, Nat.shiftLeft_eq]

/-- R35: STATUS as a number, its fields at their places. -/
theorem statusWord_toNat (s : State) :
    s.statusWord.toNat = s.busy.toNat + 2 * s.halted.toNat + 2 ^ 8 * s.faultCode.byte.toNat +
      2 ^ 16 * s.faultNote.toNat + 2 ^ 24 * s.faultOp.toNat + 2 ^ 32 * s.faultOff.toNat := by
  calc s.statusWord.toNat
      = (0#16 ++ s.faultOff ++ 0#4 ++ s.faultOp ++ s.faultNote ++ s.faultCode.byte ++ 0#6 ++
          BitVec.ofBool s.halted ++ BitVec.ofBool s.busy).toNat := rfl
    _ = _ := by
      simp only [toNat_append_eq_add, BitVec.toNat_ofBool, BitVec.toNat_ofNat]
      omega

/-- R35: a field of STATUS is a quotient of that number. -/
theorem statusWord_field (s : State) (start len : Nat) (x : BitVec len)
    (h : s.statusWord.toNat / 2 ^ start % 2 ^ len = x.toNat) :
    s.statusWord.extractLsb' start len = x := by
  apply BitVec.eq_of_toNat_eq
  rw [BitVec.extractLsb'_toNat, Nat.shiftRight_eq_div_pow, h]

/-- R35: a reserved field of STATUS. -/
theorem statusWord_reserved (s : State) (start len : Nat)
    (h : s.statusWord.toNat / 2 ^ start % 2 ^ len = 0) :
    s.statusWord.extractLsb' start len = 0 :=
  statusWord_field s start len 0 (h.trans BitVec.toNat_zero.symm)

/-- R35, R281: FAULT_CODE is the byte of the recorded fault. -/
theorem statusWord_faultCode (s : State) : s.statusWord.extractLsb' 8 8 = s.faultCode.byte := by
  have hb := Bool.toNat_le s.busy
  have hh := Bool.toNat_le s.halted
  apply statusWord_field
  rw [statusWord_toNat]
  omega

/-- R35: a bit of STATUS is a field of one bit. -/
theorem statusWord_bit (s : State) (k : Nat) (b : Bool)
    (h : s.statusWord.toNat / 2 ^ k % 2 = b.toNat) : s.statusWord.getLsbD k = b := by
  rw [BitVec.getLsbD, Nat.testBit_eq_decide_div_mod_eq, h]
  cases b <;> rfl

/-- Settles O32: every field is read off the number STATUS stands for. -/
theorem statusFields : Obligations.StatusFields := by
  intro s
  have hb := Bool.toNat_le s.busy
  have hh := Bool.toNat_le s.halted
  rw [statusWord_faultCode]
  refine ⟨statusWord_bit s 0 _ ?_, statusWord_bit s 1 _ ?_, statusWord_reserved s 2 6 ?_,
    congrArg FaultCode.byte, congrArg FaultCode.byte, congrArg FaultCode.byte,
    congrArg FaultCode.byte, congrArg FaultCode.byte, congrArg FaultCode.byte,
    congrArg FaultCode.byte, congrArg FaultCode.byte, congrArg FaultCode.byte,
    statusWord_field s 16 8 _ ?_, statusWord_field s 24 4 _ ?_, statusWord_reserved s 28 4 ?_,
    statusWord_field s 32 16 _ ?_, statusWord_reserved s 48 16 ?_⟩
  all_goals
    rw [statusWord_toNat]
    omega

end Sys2Proof.Machine
end

section
/-! SUPPORT. The host's accesses: which register an offset reaches, what a legal, a refused and an
ignored access leave. -/

namespace Sys2Proof.Machine

/-! ### The register map (R72, R104) -/

theorem HostReg.offset_aligned (r : HostReg) : r.offset % 8 = 0 := by
  cases r with
  | out i =>
    simp only [HostReg.offset]
    omega
  | _ => rfl

theorem HostReg.offset_low {r : HostReg} (hout : ∀ i, r ≠ .out i) : r.offset ≤ 0x060 := by
  cases r with
  | out i => exact absurd rfl (hout i)
  | _ => decide

theorem HostReg.offset_writable {r : HostReg} (hw : r.writable = true) :
    r.offset ∈ writableOffsets := by
  cases r with
  | status => cases hw
  | param0 => cases hw
  | param1 => cases hw
  | out i => cases hw
  | _ => decide

theorem regOffsets_lookup_offset {r : HostReg} (hout : ∀ i, r ≠ .out i) :
    regOffsets.lookup r.offset = some r := by
  cases r with
  | out i => exact absurd rfl (hout i)
  | _ => rfl

/-- R104: the table's entries are the registers below the OUT window. -/
theorem eq_offset_of_mem_regOffsets :
    ∀ p ∈ regOffsets, p.1 = p.2.offset ∧ ∀ i, p.2 ≠ .out i := by
  simp [regOffsets, HostReg.offset]

theorem regOffsets_lookup_eq_some {n : Nat} {r : HostReg} (h : regOffsets.lookup n = some r) :
    n = r.offset ∧ ∀ i, r ≠ .out i := by
  obtain ⟨l₁, l₂, hsplit, -⟩ := List.lookup_eq_some_iff.mp h
  exact eq_offset_of_mem_regOffsets (n, r) (by simp [hsplit])

/-- R104: an access at the offset of a register below the OUT window reaches it. -/
theorem accessReg_offset (P : Params) (off : BitVec 16) {r : HostReg} (hout : ∀ i, r ≠ .out i)
    (h : off.toNat = r.offset) : accessReg P off 8 = some r := by
  have hlow := HostReg.offset_low hout
  rw [accessReg_low P off (by omega), h, if_pos r.offset_aligned, regOffsets_lookup_offset hout]

/-- R72, R104: an access that reaches a register has 8 bytes and the register's offset. -/
theorem accessReg_eq_some {P : Params} {off : BitVec 16} {width : Nat} {r : HostReg}
    (h : accessReg P off width = some r) :
    width = 8 ∧ off.toNat = r.offset ∧ ∀ i, r = .out i → i < P.bs := by
  unfold accessReg at h
  split at h
  case isFalse => cases h
  case isTrue hw =>
    refine ⟨hw.1, ?_⟩
    simp only [regAt] at h
    split at h
    case isTrue hwindow =>
      cases h
      refine ⟨?_, ?_⟩
      · simp only [HostReg.offset]
        omega
      · rintro i ⟨⟩
        omega
    case isFalse =>
      obtain ⟨hoff, hout⟩ := regOffsets_lookup_eq_some h
      exact ⟨hoff, fun i hi => absurd hi (hout i)⟩

theorem eq_ofNat_offset_of_accessReg {P : Params} {off : BitVec 16} {width : Nat} {r : HostReg}
    (h : accessReg P off width = some r) : off = BitVec.ofNat 16 r.offset := by
  obtain ⟨-, hoff, -⟩ := accessReg_eq_some h
  rw [← hoff, BitVec.ofNat_toNat, BitVec.setWidth_eq]

/-- R72: an access of another width or alignment reaches no register. -/
theorem accessReg_malformed (P : Params) (off : BitVec 16) (width : Nat)
    (h : width ≠ 8 ∨ off.toNat % 8 ≠ 0) : accessReg P off width = none :=
  if_neg fun hw => h.elim (· hw.1) (· hw.2)

/-- R104: a writable register lies at a writable offset. -/
theorem mem_writableOffsets_of_accessReg {P : Params} {off : BitVec 16} {width : Nat} {r : HostReg}
    (h : accessReg P off width = some r) (hw : r.writable = true) :
    off.toNat ∈ writableOffsets := by
  obtain ⟨-, hoff, -⟩ := accessReg_eq_some h
  exact hoff ▸ HostReg.offset_writable hw

/-- R104: a register that an access reaches lies at a readable offset. -/
theorem readableOffset_of_accessReg {P : Params} {off : BitVec 16} {width : Nat} {r : HostReg}
    (h : accessReg P off width = some r) : readableOffset P off := by
  obtain ⟨-, hoff, hbs⟩ := accessReg_eq_some h
  by_cases hout : ∃ i, r = .out i
  · obtain ⟨i, rfl⟩ := hout
    exact .inr ⟨i, hbs i rfl, hoff⟩
  · rw [not_exists] at hout
    exact .inl ⟨hoff ▸ HostReg.offset_low hout, hoff ▸ r.offset_aligned⟩

/-! ### The fault action (R285) -/

/-- R285: the first fault is recorded; a later one only leaves HALTED at 1. -/
theorem State.raise_eq_firstFault (s : State) (c : FaultCode) (n : BitVec 8) (o : BitVec 4)
    (f : BitVec 16) : s.raise c n o f =
      if s.faultCode = .none then firstFault s c n o f else { s with halted := true } := by
  by_cases h : s.faultCode = .none <;> simp [State.raise, firstFault, h]

theorem State.raiseAccess_eq_refusedAccess (s : State) (c : FaultCode) (off : BitVec 16) :
    s.raiseAccess c off = refusedAccess s c off :=
  s.raise_eq_firstFault c 0 0 off

/-- R287: a refused access changes nothing of a halted core with a fault recorded. -/
theorem refusedAccess_of_recorded {s : State} (hh : s.halted = true) (hc : s.faultCode ≠ .none)
    (c : FaultCode) (off : BitVec 16) : refusedAccess s c off = s := by
  rw [refusedAccess, if_neg hc, ← hh]

/-! ### Writes (R72, R73, R76) -/

theorem hostWrite_of_halted (s : State) (off : BitVec 16) (width : Nat) (v : Word64)
    (hh : s.halted = true) : hostWrite s off width v = s :=
  if_pos hh

/-- Settles O27: HALTED is the first check of a write. -/
theorem haltedWriteIgnored : Obligations.HaltedWriteIgnored :=
  hostWrite_of_halted

/-- R72, R73: a write that reaches no writable register is a BAD_ACCESS, BUSY or not. -/
theorem hostWrite_refused (s : State) (off : BitVec 16) (width : Nat) (v : Word64)
    (hh : s.halted = false)
    (hr : ∀ r, accessReg s.params off width = some r → r.writable = false) :
    hostWrite s off width v = refusedAccess s .badAccess off := by
  rw [← State.raiseAccess_eq_refusedAccess]
  cases h : accessReg s.params off width with
  | none => simp [hostWrite, hh, h]
  | some r => simp [hostWrite, hh, h, hr r h]

/-- R73: a write to a writable register while BUSY = 1. -/
theorem hostWrite_of_busy (s : State) (off : BitVec 16) (width : Nat) (v : Word64) (r : HostReg)
    (hh : s.halted = false) (hb : s.busy = true) (hr : accessReg s.params off width = some r)
    (hw : r.writable = true) : hostWrite s off width v = refusedAccess s .busyViolation off := by
  rw [← State.raiseAccess_eq_refusedAccess]
  simp [hostWrite, hh, hb, hr, hw]

/-- R33: bits 63:1 of CFG_FLAGS ignore writes. -/
theorem flagsOfWrite_eq (v : Word64) : flagsOfWrite v = (v.extractLsb' 0 1).zeroExtend 64 := by
  apply BitVec.eq_of_toNat_eq
  simp [flagsOfWrite, BitVec.toNat_and, Nat.and_one_is_mod, BitVec.extractLsb'_toNat]
  omega

/-- R73: what a write leaves once its checks have passed, by the offset of its register. -/
theorem writeReg_by_offset (s : State) (v : Word64) {r : HostReg} (hw : r.writable = true)
    {off : BitVec 16} (hoff : off = BitVec.ofNat 16 r.offset) :
    s.writeReg r v =
      (if off = 0x000 then { s with cmdLast := v, pending := some v, busy := true }
      else if off = 0x048 then { s with cfgFlags := flagsOfWrite v }
      else if off = 0x010 then { s with cfgAmp := .ofBits v }
      else if off = 0x018 then { s with cfgFm := .ofBits v }
      else if off = 0x020 then { s with cfgBeta := .ofBits v }
      else if off = 0x028 then { s with cfgAttack := .ofBits v }
      else if off = 0x030 then { s with cfgDecay := .ofBits v }
      else if off = 0x038 then { s with cfgSustain := .ofBits v }
      else if off = 0x040 then { s with cfgRelease := .ofBits v }
      else { s with arg := .ofBits v }) := by
  subst hoff
  cases r with
  | status => cases hw
  | param0 => cases hw
  | param1 => cases hw
  | out i => cases hw
  | _ => rfl

/-- Settles O26: the checks in order, then the writable register at the offset. -/
theorem hostWriteRule : Obligations.HostWriteRule := by
  intro s off v
  by_cases hh : s.halted = true
  · rw [if_pos hh, hostWrite_of_halted s off 8 v hh]
  rw [if_neg hh]
  rw [Bool.not_eq_true] at hh
  by_cases hoff : off.toNat ∈ writableOffsets
  case neg =>
    rw [if_pos hoff]
    exact hostWrite_refused s off 8 v hh fun r hr =>
      Bool.eq_false_of_not_eq_true fun hw => hoff (mem_writableOffsets_of_accessReg hr hw)
  rw [if_neg (not_not_intro hoff)]
  obtain ⟨r, hr, hw, -⟩ := accessReg_writable s.params off hoff
  by_cases hb : s.busy = true
  · rw [if_pos hb, hostWrite_of_busy s off 8 v r hh hb hr hw]
  rw [if_neg hb]
  rw [Bool.not_eq_true] at hb
  rw [hostWrite_eq_writeReg s off 8 v r hh hb hr hw, ← flagsOfWrite_eq]
  exact writeReg_by_offset s v hw (eq_ofNat_offset_of_accessReg hr)

/-! ### Reads (R72, R74, R333) -/

/-- R72, R74: a read that reaches no register is a BAD_ACCESS with a free answer. -/
theorem hostRead_refused (s : State) (off : BitVec 16) (width : Nat)
    (hr : accessReg s.params off width = none) :
    hostRead s off width = freeAnswer (refusedAccess s .badAccess off) := by
  rw [hostRead, hr, ← State.raiseAccess_eq_refusedAccess]
  rfl

/-- R287: once a fault is recorded, such a read leaves only its answer. -/
theorem hostRead_refused_of_recorded (s : State) (off : BitVec 16) (width : Nat)
    (hr : accessReg s.params off width = none) (hh : s.halted = true)
    (hc : s.faultCode ≠ .none) : hostRead s off width = freeAnswer s := by
  rw [hostRead_refused s off width hr, refusedAccess_of_recorded hh hc]

/-- Settles O25: such an access reaches no register. -/
theorem malformedAccessFaults : Obligations.MalformedAccessFaults := by
  intro s off width v hbad
  have hnone := accessReg_malformed s.params off width hbad
  exact ⟨fun hh => hostWrite_refused s off width v hh (by simp [hnone]),
    hostWrite_of_halted s off width v, hostRead_refused s off width hnone,
    hostRead_refused_of_recorded s off width hnone⟩

/-- Settles O29: every register lies at a readable offset. -/
theorem unreadableOffsetFaults : Obligations.UnreadableOffsetFaults := by
  intro s off hoff
  have hnone : accessReg s.params off 8 = none :=
    Option.eq_none_iff_forall_ne_some.mpr fun r hr => hoff (readableOffset_of_accessReg hr)
  exact ⟨hostRead_refused s off 8 hnone, hostRead_refused_of_recorded s off 8 hnone⟩

/-- R74, R333: a read of OUT[i]. -/
theorem hostRead_out (s : State) (off : BitVec 16) (i : Nat) (hi : i < s.params.bs)
    (hoff : off.toNat = 0x100 + 8 * i) : hostRead s off 8 =
      if s.busy then s.answerAny else s.answer (s.out.getD i .posZero).toBits := by
  rw [hostRead, accessReg_out s.params off i hi hoff]
  rfl

/-- R74: a read at the offset of a register below the OUT window answers it. -/
theorem hostRead_offset (s : State) (off : BitVec 16) (r : HostReg) (hout : ∀ i, r ≠ .out i)
    (hoff : off = BitVec.ofNat 16 r.offset) : hostRead s off 8 = s.answer (s.readReg r) := by
  have hlow := HostReg.offset_low hout
  apply hostRead_eq_answer s off 8 r (accessReg_offset s.params off hout ?_) hout
  rw [hoff, BitVec.toNat_ofNat]
  omega

/-- R104: PARAM0 and PARAM1 put a 32-bit field above another. -/
theorem ofNat_append_ofNat (a b : Nat) : BitVec.ofNat 32 a ++ BitVec.ofNat 32 b =
    BitVec.ofNat 64 (2 ^ 32 * (a % 2 ^ 32) + b % 2 ^ 32) := by
  apply BitVec.eq_of_toNat_eq
  rw [toNat_append_eq_add]
  simp only [BitVec.toNat_ofNat]
  omega

/-- R74: the ENV_MAX_FRAMES field holds a bound of 32 bits, or 0 for ∞. -/
theorem envMaxField_eq (P : Params) (h : ∀ m, P.envMax = some m → m < 2 ^ 32) :
    P.envMax.getD 0 < 2 ^ 32 ∧ envMaxField P = BitVec.ofNat 32 (P.envMax.getD 0) := by
  cases hm : P.envMax with
  | none => simp [envMaxField, hm]
  | some m =>
    have hlt := h m hm
    exact ⟨hlt, by rw [envMaxField, hm]; exact if_pos hlt⟩

theorem param1Word_eq (P : Params) (h : ∀ m, P.envMax = some m → m < 2 ^ 32) :
    param1Word P = BitVec.ofNat 64 (2 ^ 32 * P.envMax.getD 0 + P.nNotes % 2 ^ 32) := by
  obtain ⟨hlt, hfield⟩ := envMaxField_eq P h
  rw [param1Word, hfield, ofNat_append_ofNat, Nat.mod_eq_of_lt hlt]

/-- Settles O28: OUT by whether BUSY = 1, and each other register at its offset. -/
theorem hostReadRule : Obligations.HostReadRule := by
  intro s off
  refine ⟨fun i hi hoff hb => ?_, fun ⟨i, hi, hoff⟩ hb => ?_, hostRead_offset s off .cmd nofun,
    hostRead_offset s off .status nofun, hostRead_offset s off .cfgAmp nofun,
    hostRead_offset s off .cfgFm nofun, hostRead_offset s off .cfgBeta nofun,
    hostRead_offset s off .cfgAttack nofun, hostRead_offset s off .cfgDecay nofun,
    hostRead_offset s off .cfgSustain nofun, hostRead_offset s off .cfgRelease nofun,
    hostRead_offset s off .cfgFlags nofun, hostRead_offset s off .arg nofun, fun hoff => ?_,
    fun hoff hmax => ?_⟩
  · rw [hostRead_out s off i hi hoff, if_neg (Bool.eq_false_iff.mp hb)]
    rfl
  · rw [hostRead_out s off i hi hoff, if_pos hb]
    rfl
  · rw [hostRead_offset s off .param0 nofun hoff, ← ofNat_append_ofNat]
    rfl
  · rw [hostRead_offset s off .param1 nofun hoff, ← param1Word_eq s.params hmax]
    rfl

end Sys2Proof.Machine
end

section
/-! SUPPORT. The fields of a word that decodes (R107). -/

namespace Sys2Proof

/-- R107: the fields of a word that decodes are its command's. -/
theorem fields_of_decode {w : Word64} {i : Instr} (h : decode w = .ok i) :
    reservedClear w = true ∧ (opField w).toNat = i.op ∧ (noteField w).toNat = i.note := by
  simp only [decode] at h
  split at h
  case isFalse => cases h
  case isTrue hclear =>
    refine ⟨hclear, ?_⟩
    split at h
    case h_3 hop | h_4 hop =>
      split at h
      case isTrue hn =>
        cases h
        exact ⟨hop, hn⟩
      case isFalse => cases h
    case h_8 => cases h
    all_goals
      cases h
      exact ⟨‹_›, rfl⟩

theorem Instr.op_bounds (i : Instr) : 1 ≤ i.op ∧ i.op ≤ 7 := by
  cases i <;> simp [Instr.op]

theorem Instr.note_eq_zero_of_op {i : Instr} (h : i.op = 3 ∨ i.op = 4) : i.note = 0 := by
  cases i with
  | next => rfl
  | stop => rfl
  | _ => simp [Instr.op] at h

end Sys2Proof
end

section
/-! SUPPORT. What a step does with the first event of the agenda (R20, R240). -/

namespace Sys2Proof.Machine

/-! ### The CORE's turn (R106, R240) -/

theorem step_of_coreNext {s : State} {rest : List Event} (h : CoreNext s rest) :
    step s = coreTurn { s with agenda := rest } := by
  rcases h with ha | ⟨ha, rfl⟩
  · rw [step, agentStep, ha]
    rfl
  · have hturn : step s = coreTurn s := by rw [step, agentStep, ha]
    rw [hturn, ← ha]

/-- R240: with BUSY = 1 the CORE's turn runs the pending word and ends its completion. -/
theorem coreTurn_of_runCommand {s t : State} {w : Word64} (hb : s.busy = true)
    (hp : s.pending = some w) (hr : runCommand s w = .next t) :
    coreTurn s = .next t.finishCommand := by
  simp [coreTurn, complete, hb, hp, hr]

/-- With BUSY = 1 and nothing pending the CORE's turn stops the model (log 14). -/
theorem coreTurn_of_pending_none {s : State} (hb : s.busy = true) (hp : s.pending = none) :
    coreTurn s = .fault .busyWithoutPending := by
  rw [coreTurn, if_pos hb, complete, hp]

theorem runCommand_of_decode {s : State} {w : Word64} {i : Instr} (hd : decode w = .ok i) :
    runCommand s w = exec i s := by
  rw [runCommand, hd]

/-- R106: a word that decodes is none of the illegal ones. -/
theorem not_illegalWord_of_decode {w : Word64} {i : Instr} (h : decode w = .ok i) :
    ¬IllegalWord w := by
  obtain ⟨hclear, hop, hnote⟩ := fields_of_decode h
  obtain ⟨hhigh, hmid⟩ := (reservedClear_iff w).mp hclear
  obtain ⟨hpos, hle⟩ := i.op_bounds
  have hop_eq : ∀ c, opField w = c → i.op = c.toNat := fun c hc => hc ▸ hop.symm
  rintro (hzero | hbig | hmid' | hhigh' | ⟨h34, hn⟩)
  · have hop0 : i.op = 0 := hop_eq 0 hzero
    omega
  · have hop8 : 8 ≤ (opField w).toNat := hbig
    omega
  · exact hmid' hmid
  · exact hhigh' hhigh
  · have hzero := Instr.note_eq_zero_of_op (h34.imp (hop_eq 3) (hop_eq 4))
    exact hn (BitVec.eq_of_toNat_eq (hnote.trans hzero))

/-- R106, R240: an illegal word runs to its fault. -/
theorem runCommand_illegal (s : State) {w : Word64} (h : IllegalWord w) :
    runCommand s w = .next (illegalCommand s w) := by
  rcases runCommand_cases s w with ⟨i, hd, -⟩ | ⟨-, -, hr⟩
  · exact absurd h (not_illegalWord_of_decode hd)
  · exact hr

theorem illegalCommand_finishCommand (s : State) (w : Word64) :
    (illegalCommand s w).finishCommand = illegalCompleted s w := by
  rw [illegalCommand, State.raise_eq_firstFault]
  rfl

theorem withFetchWord_toNat (s : State) (w : Word64) : s.withFetchWord 64 w.toNat =
    { s.latchCommand w with agenda := .core :: s.agenda } := by
  rw [State.withFetchWord, Nat.mod_eq_of_lt w.isLt, BitVec.ofNat_toNat, BitVec.setWidth_eq]
  rfl

/-- Settles O6: the placed word is pending and the CORE's turn is next. -/
theorem fetchedWordRuns : Obligations.FetchedWordRuns := by
  intro s w i hd
  obtain ⟨t, ht⟩ := exec_next i { s with cmdLast := w, pending := some w, busy := true }
  have hturn : coreTurn (s.latchCommand w) = .next t.finishCommand :=
    coreTurn_of_runCommand rfl rfl ((runCommand_of_decode hd).trans ht)
  have hstep : step (s.withFetchWord 64 w.toNat) = coreTurn (s.latchCommand w) := by
    rw [withFetchWord_toNat]
    exact step_of_coreNext (.inl rfl)
  rw [hstep, hturn, ht]
  rfl

/-! ### The host's events and reset (R70, R78, R121, R320) -/

section
variable {s : State} {rest : List Event}

theorem step_read {addr width : Nat} (ha : s.agenda = .read addr width :: rest) :
    step s = .next (busRead { s with agenda := rest } addr width) := by
  rw [step, agentStep, ha]
  rfl

theorem step_write {addr width : Nat} {v : Word64} (ha : s.agenda = .write addr width v :: rest) :
    step s = .next (busWrite { s with agenda := rest } addr width v) := by
  rw [step, agentStep, ha]
  rfl

theorem step_wait (ha : s.agenda = .wait :: rest) : step s = .next (waitPoll s rest) := by
  rw [step, agentStep, ha]

theorem step_reset (ha : s.agenda = .reset :: rest) :
    step s = .next ({ s with agenda := rest } : State).platformReset := by
  rw [step, agentStep, ha]
  rfl

end

/-- R70: an access at BASE + off is the access of the window at off. -/
theorem busRead_inside (s : State) (off : BitVec 16) (width : Nat) :
    busRead s (s.params.base + off.toNat) width = hostRead s off width := by
  rw [busRead, windowOffset_inside]

theorem busWrite_inside (s : State) (off : BitVec 16) (width : Nat) (v : Word64) :
    busWrite s (s.params.base + off.toNat) width v = hostWrite s off width v := by
  rw [busWrite, windowOffset_inside]

/-- R78: an access outside the window does not reach the core. -/
theorem busRead_outside (s : State) (addr width : Nat)
    (h : addr < s.params.base ∨ s.params.base + 2 ^ 16 ≤ addr) :
    busRead s addr width = freeAnswer s := by
  rw [busRead, windowOffset_outside _ _ h]
  rfl

theorem busWrite_outside (s : State) (addr width : Nat) (v : Word64)
    (h : addr < s.params.base ∨ s.params.base + 2 ^ 16 ≤ addr) :
    busWrite s addr width v = s := by
  rw [busWrite, windowOffset_outside _ _ h]

/-- R121: a WAIT polls STATUS once, and again after the CORE's turn while BUSY = 1. -/
theorem waitPoll_eq (s : State) (rest : List Event) : waitPoll s rest =
    { hostRead s 0x008 8 with agenda := if s.busy then .core :: .wait :: rest else rest } := by
  cases hb : s.busy <;> simp [waitPoll, hb, State.setAgenda]

/-- Settles O9: the CORE's turn by BUSY, PENDING and what the word decodes to, a host access by
where its address lies, WAIT by BUSY. -/
theorem stepTakesFirstEvent : Obligations.StepTakesFirstEvent := by
  refine ⟨?idle, ?stop, ?command, ?illegal, ?read, ?write, ?readOutside, ?writeOutside, ?waitIdle,
    ?waitBusy, fun s rest => step_reset⟩
  case idle =>
    intro s rest hn hb
    rw [step_of_coreNext hn]
    exact if_neg (Bool.eq_false_iff.mp hb)
  case stop =>
    intro s rest hn hb hp
    rw [step_of_coreNext hn]
    exact coreTurn_of_pending_none hb hp
  case command =>
    intro s rest w i t hn hb hp hd ht
    rw [step_of_coreNext hn]
    exact coreTurn_of_runCommand hb hp ((runCommand_of_decode hd).trans ht)
  case illegal =>
    intro s rest w hn hb hp hw
    rw [step_of_coreNext hn, ← illegalCommand_finishCommand]
    exact coreTurn_of_runCommand hb hp (runCommand_illegal _ hw)
  case read =>
    intro s off width rest ha
    exact (step_read ha).trans (congrArg _ (busRead_inside _ off width))
  case write =>
    intro s off width v rest ha
    exact (step_write ha).trans (congrArg _ (busWrite_inside _ off width v))
  case readOutside =>
    intro s addr width rest ha hout
    exact (step_read ha).trans (congrArg _ (busRead_outside _ addr width hout))
  case writeOutside =>
    intro s addr width v rest ha hout
    exact (step_write ha).trans (congrArg _ (busWrite_outside _ addr width v hout))
  case waitIdle =>
    intro s rest ha hb
    rw [step_wait ha, waitPoll_eq, if_neg (Bool.eq_false_iff.mp hb)]
  case waitBusy =>
    intro s rest ha hb
    rw [step_wait ha, waitPoll_eq, if_pos hb]

end Sys2Proof.Machine
end

section
/-! SUPPORT. The decoder's inverse: fields and bytes of a command word, rows of the table
(R75, R105, R107, R120). -/

namespace Sys2Proof

/-! ### The word of a command (R107, R120) -/

/-- R120: the range check is the same for every command; NEXT and STOP carry note 0. -/
theorem Instr.wf_iff (i : Instr) : i.wf = true ↔ i.note ≤ 255 := by
  cases i <;> simp [Instr.wf, Instr.note, noteInRange]

/-- R107: the decoder answers the command whose OP and NOTE the word holds. -/
theorem decode_of_fields {w : Word64} {i : Instr} (hclear : reservedClear w = true)
    (hop : (opField w).toNat = i.op) (hnote : (noteField w).toNat = i.note) :
    decode w = .ok i := by
  simp only [decode, if_pos hclear, hop, hnote]
  cases i <;> rfl

/-- R107, R120: what a word decodes to, by the number it is. -/
theorem decode_eq_ok_iff (w : Word64) (i : Instr) :
    decode w = .ok i ↔ i.wf = true ∧ w.toNat = i.op + 256 * i.note := by
  constructor
  · intro h
    obtain ⟨hclear, hop, hnote⟩ := fields_of_decode h
    have hlt : (noteField w).toNat < 256 := (noteField w).isLt
    have hw := toNat_of_reservedClear w hclear
    rw [Instr.wf_iff]
    omega
  · rintro ⟨hwf, hw⟩
    obtain ⟨-, hle⟩ := i.op_bounds
    obtain ⟨hclear, hop, hnote⟩ :=
      fields_of_toNat w i.op i.note (Nat.lt_succ_of_le hle) ((Instr.wf_iff i).mp hwf) hw
    exact decode_of_fields hclear hop hnote

theorem decode_encode {i : Instr} (h : i.wf = true) : decode (encode i) = .ok i :=
  (decode_eq_ok_iff _ _).mpr ⟨h, encode_toNat i h⟩

/-- Settles O2: the word is the number OP + 256 · NOTE, and so is the encoding. -/
theorem encodeDecodeRoundTrip : Obligations.EncodeDecodeRoundTrip := by
  intro w i h
  obtain ⟨hwf, hw⟩ := (decode_eq_ok_iff w i).mp h
  exact ⟨hwf, BitVec.eq_of_toNat_eq ((encode_toNat i hwf).trans hw.symm)⟩

/-! ### The bytes of a word (R75, R108) -/

@[simp] theorem wordBytes_length (w : Word64) : (wordBytes w).length = 8 := by
  simp [wordBytes]

/-- R75: the eight bytes are the base-256 digits of the word, lowest first. -/
@[simp] theorem bytesWord_wordBytes (w : Word64) : bytesWord (wordBytes w) = w := by
  apply BitVec.eq_of_toNat_eq
  simp [bytesWord, wordBytes, List.range_succ, BitVec.extractLsb'_toNat,
    Nat.shiftRight_eq_div_pow]
  omega

/-- R100: decoding from bytes takes one word and leaves the rest. -/
theorem decodeBytes_wordBytes_append {w : Word64} {i : Instr} (h : decode w = .ok i)
    (rest : List Byte) : decodeBytes (wordBytes w ++ rest) = .ok (i, rest) := by
  have htake : (wordBytes w ++ rest).take 8 = wordBytes w := List.take_left' (wordBytes_length w)
  have hdrop : (wordBytes w ++ rest).drop 8 = rest := List.drop_left' (wordBytes_length w)
  simp [decodeBytes, htake, hdrop, h]

/-- Settles O1: the encoding decodes by its fields, and its bytes are the word's. -/
theorem decodeEncodeRoundTrip : Obligations.DecodeEncodeRoundTrip := fun _ hwf =>
  ⟨decode_encode hwf, decodeBytes_wordBytes_append (decode_encode hwf)⟩

/-! ### The rows of the table (R105) -/

/-- R105: the mask of a command with a note keeps OP. -/
@[simp] theorem opField_and_noteMask (w : Word64) :
    opField (w &&& 0xFFFFFFFFFFFF00FF) = opField w := by
  have hmask : (0xFFFFFFFFFFFF00FF : Word64).extractLsb' 0 4 = BitVec.allOnes 4 := by decide
  simp only [opField, BitVec.extractLsb'_and, hmask, BitVec.and_allOnes]

/-- R105: the mask of a command with a note keeps the reserved fields. -/
@[simp] theorem reservedClear_and_noteMask (w : Word64) :
    reservedClear (w &&& 0xFFFFFFFFFFFF00FF) = reservedClear w := by
  have hhigh : (0xFFFFFFFFFFFF00FF : Word64).extractLsb' 16 48 = BitVec.allOnes 48 := by decide
  have hmid : (0xFFFFFFFFFFFF00FF : Word64).extractLsb' 4 4 = BitVec.allOnes 4 := by decide
  simp only [reservedClear, BitVec.extractLsb'_and, hhigh, hmid, BitVec.and_allOnes]

/-- R105: a word accepted by the row of a command with a note decodes to that command. -/
theorem decode_of_noteMask {w c : Word64} (h : w &&& 0xFFFFFFFFFFFF00FF = c) {i : Instr}
    (hclear : reservedClear c = true) (hop : (opField c).toNat = i.op)
    (hnote : i.note = (noteField w).toNat) : decode w = .ok i := by
  subst h
  rw [reservedClear_and_noteMask] at hclear
  rw [opField_and_noteMask] at hop
  exact decode_of_fields hclear hop hnote.symm

/-- R105: a word that a row accepts decodes to a command of the row's mnemonic. -/
theorem decode_of_accepts {w : Word64} {r : CmdRow} (hr : r ∈ cmdRows)
    (h : r.accepts w = true) : ∃ i, decode w = .ok i ∧ r.mnemonic = i.mnemonic := by
  have hw : w &&& r.mask = r.pattern := beq_iff_eq.mp h
  have hexact : ∀ c : Word64, w &&& 0xFFFFFFFFFFFFFFFF = c → w = c := fun c hc =>
    (BitVec.and_allOnes (x := w)).symm.trans hc
  simp only [cmdRows, List.mem_cons, List.not_mem_nil, or_false] at hr
  rcases hr with rfl | rfl | rfl | rfl | rfl | rfl | rfl
  · exact ⟨.noteOn _, decode_of_noteMask hw rfl rfl rfl, rfl⟩
  · exact ⟨.noteOff _, decode_of_noteMask hw rfl rfl rfl, rfl⟩
  · exact ⟨.next, by rw [hexact 3 hw]; decide, rfl⟩
  · exact ⟨.stop, by rw [hexact 4 hw]; decide, rfl⟩
  · exact ⟨.setAmp _, decode_of_noteMask hw rfl rfl rfl, rfl⟩
  · exact ⟨.setFm _, decode_of_noteMask hw rfl rfl rfl, rfl⟩
  · exact ⟨.setBeta _, decode_of_noteMask hw rfl rfl rfl, rfl⟩

/-- R100, R105: every well-formed command's word has its row. -/
theorem rowMask_statement (i : Instr) : Laws.RowMask.Statement i := by
  cases i with
  | noteOn n => exact Laws.RowMask.noteOn n
  | noteOff n => exact Laws.RowMask.noteOff n
  | next => exact Laws.RowMask.next
  | stop => exact Laws.RowMask.stop
  | setAmp n => exact Laws.RowMask.setAmp n
  | setFm n => exact Laws.RowMask.setFm n
  | setBeta n => exact Laws.RowMask.setBeta n

theorem exists_accepting_row {w : Word64} {i : Instr} (h : decode w = .ok i) :
    ∃ r ∈ cmdRows, r.accepts w = true := by
  obtain ⟨hwf, rfl⟩ := encodeDecodeRoundTrip w i h
  obtain ⟨r, hr, -, -, hmask⟩ := rowMask_statement i hwf
  exact ⟨r, hr, beq_iff_eq.mpr hmask⟩

theorem mnemonic_of_accepts {w : Word64} {i : Instr} {r : CmdRow} (hd : decode w = .ok i)
    (hr : r ∈ cmdRows) (h : r.accepts w = true) : r.mnemonic = i.mnemonic := by
  obtain ⟨j, hj, hm⟩ := decode_of_accepts hr h
  cases hd.symm.trans hj
  exact hm

theorem cmdRows_mnemonic_injective :
    ∀ r ∈ cmdRows, ∀ r' ∈ cmdRows, r.mnemonic = r'.mnemonic → r = r' := by decide

/-- Settles O3: two rows that accept a word carry the mnemonic of what it decodes to, and no two
rows share one. -/
theorem legalWordMatchesOneRow : Obligations.LegalWordMatchesOneRow := by
  intro w
  refine ⟨⟨?unique, ?legal⟩, fun i r => mnemonic_of_accepts⟩
  case unique =>
    rintro ⟨i, hd⟩
    obtain ⟨r, hr, hacc⟩ := exists_accepting_row hd
    refine ⟨r, ⟨hr, hacc⟩, fun r' ⟨hr', hacc'⟩ => ?_⟩
    have hm : r'.mnemonic = r.mnemonic :=
      (mnemonic_of_accepts hd hr' hacc').trans (mnemonic_of_accepts hd hr hacc).symm
    exact cmdRows_mnemonic_injective r' hr' r hr hm
  case legal =>
    rintro ⟨r, ⟨hr, hacc⟩, -⟩
    obtain ⟨i, hd, -⟩ := decode_of_accepts hr hacc
    exact ⟨i, hd⟩

end Sys2Proof
end

section
/-! SUPPORT. The illegal words and how they complete (R106, R240). -/

namespace Sys2Proof.Machine

/-! ### Which words are illegal (R106) -/

/-- R102, R106: the field values that name a command. -/
theorem exists_instr_of_op {op n : Nat} (hpos : op ≠ 0) (hlt : op < 8)
    (hnote : op = 3 ∨ op = 4 → n = 0) : ∃ i : Instr, i.op = op ∧ i.note = n := by
  match op with
  | 0 => exact absurd rfl hpos
  | 1 => exact ⟨.noteOn n, rfl, rfl⟩
  | 2 => exact ⟨.noteOff n, rfl, rfl⟩
  | 3 => exact ⟨.next, rfl, (hnote (.inl rfl)).symm⟩
  | 4 => exact ⟨.stop, rfl, (hnote (.inr rfl)).symm⟩
  | 5 => exact ⟨.setAmp n, rfl, rfl⟩
  | 6 => exact ⟨.setFm n, rfl, rfl⟩
  | 7 => exact ⟨.setBeta n, rfl, rfl⟩
  | k + 8 => omega

/-- R106: a word that is none of the illegal ones decodes. -/
theorem exists_decode_of_not_illegalWord {w : Word64} (h : ¬IllegalWord w) :
    ∃ i, decode w = .ok i := by
  simp only [IllegalWord, not_or, not_and, not_le, not_not] at h
  obtain ⟨hpos, hlt, hmid, hhigh, hnote⟩ := h
  have hop_eq : ∀ c : BitVec 4, (opField w).toNat = c.toNat → opField w = c :=
    fun _ => BitVec.eq_of_toNat_eq
  obtain ⟨i, hop, hn⟩ := exists_instr_of_op (op := (opField w).toNat) (n := (noteField w).toNat)
    (fun h0 => hpos (hop_eq 0 h0)) hlt
    (fun h34 => congrArg BitVec.toNat (hnote (h34.imp (hop_eq 3) (hop_eq 4))))
  exact ⟨i, decode_of_fields ((reservedClear_iff w).mpr ⟨hhigh, hmid⟩) hop.symm hn.symm⟩

theorem illegalWord_iff (w : Word64) : IllegalWord w ↔ ∀ i, decode w ≠ .ok i := by
  refine ⟨fun h i hd => not_illegalWord_of_decode hd h, fun h => ?_⟩
  by_contra hlegal
  obtain ⟨i, hd⟩ := exists_decode_of_not_illegalWord hlegal
  exact h i hd

/-- Settles O7: the CORE's turn completes the word by its fault, the first one to be recorded. -/
theorem illegalWordFaults : Obligations.IllegalWordFaults := by
  refine ⟨illegalWord_iff, fun s rest w hn hb hp hf hw => ?_⟩
  obtain ⟨-, -, -, hstep, -⟩ := stepTakesFirstEvent
  rw [hstep s rest w hn hb hp hw, illegalCompleted, if_pos hf]
  rfl

/-- Settles O4: the decoder evaluated on each word; the last two have NOTE or a reserved bit
set (R106). -/
theorem specWordsDecode : Obligations.SpecWordsDecode := by
  have hnote : decode 0x0000000000000103 = .error .noteNotZero := by decide
  have hbits : decode 0x0000000000000013 = .error .reservedBits := by decide
  refine ⟨by decide, by decide, by decide, by decide, by decide, ?_, ?_⟩
  · rw [hnote]
    exact fun _ => nofun
  · rw [hbits]
    exact fun _ => nofun

end Sys2Proof.Machine
end

section
/-! SUPPORT. Oscillator blocks sample by sample, and their counters as numbers modulo 2^64. -/

namespace Sys2Proof.Machine

/-! ### The sample counter (R40) -/

/-- R40: a counter advances by BS modulo 2^64, whatever BS is. -/
theorem advance_eq_ofNat (P : Params) (t : Word64) :
    advance P t = BitVec.ofNat 64 (t.toNat + P.bs) := by
  rw [advance, BitVec.ofNat_add, BitVec.ofNat_toNat, BitVec.setWidth_eq]

/-- R142, R143: the index is the sum modulo 2^64, also across the wrap. -/
theorem sampleIndex_eq_mod (t : Word64) (i : Nat) :
    sampleIndex t i = (t.toNat + i) % 2 ^ 64 := by
  rw [sampleIndex, BitVec.toNat_add, BitVec.toNat_ofNat, Nat.add_mod_mod]

/-! ### The samples of a block (R143, R147) -/

/-- R143: the block holds the samples in order. -/
theorem oscStep_getElem? (P : Params) (o : Osc) {i : Nat} (hi : i < P.bs) :
    (oscStep P o).2[i]? = some (o.sample P i) := by
  rw [oscStep, List.getElem?_map, List.getElem?_range hi, Option.map_some]

/-- R147: the block holds the samples in order, each taken against the modulator's block. -/
theorem fmStep_getElem? (P : Params) (f : FmOsc) {i : Nat} (hi : i < P.bs) :
    (fmStep P f).2[i]? = some (f.sample P (oscStep P f.mod).2 i) := by
  rw [fmStep, List.getElem?_map, List.getElem?_range hi, Option.map_some]

/-- R147: the modulator's own sample is the carrier's phase offset. -/
theorem FmOsc.sample_of_getElem? (P : Params) (f : FmOsc) {mod : List F64} {i : Nat} {m : F64}
    (hm : mod[i]? = some m) :
    f.sample P mod i = mul64 f.amp (P.SIN (phaseArg P f.fc (sampleIndex f.t i) m)) := by
  rw [FmOsc.sample, List.getD_eq_getElem?_getD, hm, Option.getD_some]

/-- Settles O47: sample i lies at position i of the block, and its index is t + i modulo 2^64. -/
theorem oscillatorBlock : Obligations.OscillatorBlock := by
  refine ⟨by decide, fun P o => ⟨?_, oscStep_length P o, fun i hi => ?_⟩⟩
  · rw [oscStep_record, advance_eq_ofNat]
  · rw [oscStep_getElem? P o hi, Osc.sample, sampleIndex_eq_mod, phaseArg]

/-- Settles O48: sample i lies at position i of the block, with the modulator's sample i as its
phase offset. -/
theorem fmOscillatorBlock : Obligations.FmOscillatorBlock := by
  refine fun P f => ⟨?_, fmStep_length P f, fun i m hi hm => ?_⟩
  · rw [fmStep_record, advance_eq_ofNat, advance_eq_ofNat]
  · rw [fmStep_getElem? P f hi, f.sample_of_getElem? P hm, sampleIndex_eq_mod, phaseArg]

end Sys2Proof.Machine
end

section
/-! SUPPORT. The envelope buffer as the list of its samples, and the kinds of blocks. -/

namespace Sys2Proof.Machine

/-! ### Breakpoints in order (R160, R163) -/

/-- R163: the check on neighbours orders the whole list. -/
theorem framesOrdered_iff_pairwise (pts : List Breakpoint) :
    framesOrdered pts = true ↔ pts.Pairwise (fun p q => p.frame ≤ q.frame) := by
  have hchain : framesOrdered pts = true ↔ (pts.map Breakpoint.frame).IsChain (· ≤ ·) := by
    induction pts using framesOrdered.induct with
    | case1 => simp [framesOrdered]
    | case2 p => simp [framesOrdered]
    | case3 p q rest ih => simpa [framesOrdered] using fun _ => ih
  rw [hchain, List.isChain_iff_pairwise, List.pairwise_map]

theorem framesOrdered_tail {p : Breakpoint} {rest : List Breakpoint}
    (h : framesOrdered (p :: rest) = true) : framesOrdered rest = true := by
  rw [framesOrdered_iff_pairwise] at h ⊢
  exact h.of_cons

/-- R163: what stands before a breakpoint has no later frame. -/
theorem frame_le_of_mem_before {before after : List Breakpoint} {p q : Breakpoint}
    (h : framesOrdered (before ++ q :: after) = true) (hp : p ∈ before) : p.frame ≤ q.frame := by
  rw [framesOrdered_iff_pairwise, List.pairwise_append] at h
  obtain ⟨-, -, hcross⟩ := h
  exact hcross p hp q List.mem_cons_self

/-- R160, R163: in a list in order no frame is before the first. -/
theorem firstFrame_le {before after : List Breakpoint} {p : Breakpoint}
    (h : framesOrdered (before ++ p :: after) = true) :
    firstFrame (before ++ p :: after) ≤ p.frame := by
  cases before with
  | nil => exact le_rfl
  | cons x xs => exact frame_le_of_mem_before h List.mem_cons_self

/-- R163, R164: in a list in order no frame is past the span. -/
theorem toNat_frame_le_spanOf {pts : List Breakpoint} {p : Breakpoint}
    (h : framesOrdered pts = true) (hp : p ∈ pts) : p.frame.toNat ≤ spanOf pts := by
  obtain rfl | ⟨before, final, rfl⟩ := List.eq_nil_or_concat' pts
  · exact absurd hp List.not_mem_nil
  · have hle : p.frame ≤ final.frame := by
      rcases List.mem_append.mp hp with hp | hp
      · exact frame_le_of_mem_before h hp
      · rw [List.mem_singleton.mp hp]
    simpa [spanOf] using Int.toNat_le_toNat hle

/-! ### One sample (R165, R167) -/

theorem sampleAt_of_lt (p q : Breakpoint) (rest : List Breakpoint) {j : Nat}
    (h : (j : Int) < q.frame) :
    sampleAt (p :: q :: rest) j = segSample p q ((j : Int) - p.frame).toNat := if_pos h

theorem sampleAt_of_le (p q : Breakpoint) (rest : List Breakpoint) {j : Nat}
    (h : q.frame ≤ (j : Int)) : sampleAt (p :: q :: rest) j = sampleAt (q :: rest) j :=
  if_neg (not_lt.mpr h)

/-- R165: the segments before a frame have no part in its sample. -/
theorem sampleAt_append {before after : List Breakpoint} {p : Breakpoint} {j : Nat}
    (h : framesOrdered (before ++ p :: after) = true) (hj : p.frame ≤ (j : Int)) :
    sampleAt (before ++ p :: after) j = sampleAt (p :: after) j := by
  induction before with
  | nil => rfl
  | cons x xs ih =>
    have htail := framesOrdered_tail h
    rw [← ih htail]
    cases xs with
    | nil => exact sampleAt_of_le x p after hj
    | cons y ys =>
      have hy : y.frame ≤ p.frame := frame_le_of_mem_before htail List.mem_cons_self
      exact sampleAt_of_le x y _ (hy.trans hj)

/-- R165: on a segment the sample is the segment's own. -/
theorem sampleAt_segment {before after : List Breakpoint} {p q : Breakpoint} {j : Nat}
    (h : framesOrdered (before ++ p :: q :: after) = true) (hp : 0 ≤ p.frame)
    (hj : (j : Int) < q.frame - p.frame) :
    sampleAt (before ++ p :: q :: after) (p.frame.toNat + j) = segSample p q j := by
  rw [sampleAt_append h (by omega), sampleAt_of_lt p q after (by omega)]
  congr 1
  omega

/-- R167: from the span on every sample is the final value. -/
theorem sampleAt_of_spanOf_le {pts : List Breakpoint} {j : Nat} (h : framesOrdered pts = true)
    (hj : spanOf pts ≤ j) : sampleAt pts j = finalValue pts := by
  obtain rfl | ⟨before, final, rfl⟩ := List.eq_nil_or_concat' pts
  · rfl
  · have hfinal : final.frame ≤ j := by simpa [spanOf] using hj
    simp [sampleAt_append h hfinal, sampleAt, finalValue]

/-! ### The filled buffer is the list of its samples (R165, R167) -/

/-- The numbers from a up to b and from there up to c are those from a up to c. -/
theorem range'_append_range' {a b c : Nat} (hab : a ≤ b) (hbc : b ≤ c) :
    List.range' a (b - a) ++ List.range' b (c - b) = List.range' a (c - a) := by
  have happ := List.range'_append_1 (s := a) (m := b - a) (n := c - b)
  rwa [Nat.add_sub_of_le hab, show b - a + (c - b) = c - a by omega] at happ

theorem segFill_eq_map_sampleAt (p q : Breakpoint) (rest : List Breakpoint) (hp : 0 ≤ p.frame)
    (h : framesOrdered (p :: q :: rest) = true) :
    segFill p q = (List.range' p.frame.toNat (q.frame.toNat - p.frame.toNat)).map
      (sampleAt (p :: q :: rest)) := by
  rw [List.range'_eq_map_range, List.map_map, segFill,
    show (q.frame - p.frame).toNat = q.frame.toNat - p.frame.toNat by omega]
  refine List.map_congr_left fun j hj => ?_
  have hlt := List.mem_range.mp hj
  exact (sampleAt_segment (before := []) h hp (by omega)).symm

/-- R165: the segments hold the samples from the first frame up to the span. -/
theorem segsFill_eq_map_sampleAt (pts : List Breakpoint) (h0 : 0 ≤ firstFrame pts)
    (h : framesOrdered pts = true) :
    segsFill pts = (List.range' (firstFrame pts).toNat
      (spanOf pts - (firstFrame pts).toNat)).map (sampleAt pts) := by
  induction pts using segsFill.induct with
  | case1 => rfl
  | case2 p => simp [segsFill, spanOf, firstFrame]
  | case3 p q rest ih =>
    have htail := framesOrdered_tail h
    have hpq : p.frame ≤ q.frame := frame_le_of_mem_before (before := [p]) h List.mem_cons_self
    have hspan : q.frame.toNat ≤ spanOf (q :: rest) :=
      toNat_frame_le_spanOf htail List.mem_cons_self
    have hp : 0 ≤ p.frame := h0
    have hrest : segsFill (q :: rest) =
        (List.range' q.frame.toNat (spanOf (q :: rest) - q.frame.toNat)).map
          (sampleAt (p :: q :: rest)) := by
      rw [ih (hp.trans hpq) htail]
      refine List.map_congr_left fun j hj => (sampleAt_of_le p q rest ?_).symm
      have hge := (List.mem_range'_1.mp hj).1
      exact Int.toNat_le.mp hge
    rw [segsFill, segFill_eq_map_sampleAt p q rest hp h, hrest, ← List.map_append,
      range'_append_range' (Int.toNat_le_toNat hpq) hspan]
    rfl

/-- R164, R165, R167: the whole buffer is its samples in order, the padding included. -/
theorem bufFill_eq_map_sampleAt (P : Params) (pts : List Breakpoint) (hbs : 1 ≤ P.bs)
    (h0 : firstFrame pts = 0) (h : framesOrdered pts = true) :
    bufFill P pts = (List.range (bufLen P (spanOf pts))).map (sampleAt pts) := by
  have hspan : spanOf pts ≤ bufLen P (spanOf pts) := (bufLen_spec P (spanOf pts) hbs).2.1
  have hsegs : segsFill pts = (List.range' 0 (spanOf pts - 0)).map (sampleAt pts) := by
    simpa only [h0, Int.toNat_zero] using segsFill_eq_map_sampleAt pts h0.ge h
  have hpad : List.replicate (bufLen P (spanOf pts) - spanOf pts) (finalValue pts) =
      (List.range' (spanOf pts) (bufLen P (spanOf pts) - spanOf pts)).map (sampleAt pts) := by
    refine (List.eq_replicate_iff.mpr ⟨by simp, fun x hx => ?_⟩).symm
    obtain ⟨j, hj, rfl⟩ := List.mem_map.mp hx
    exact sampleAt_of_spanOf_le h (List.mem_range'_1.mp hj).1
  rw [bufFill, hsegs, hpad, ← List.map_append, range'_append_range' (Nat.zero_le _) hspan,
    List.range_eq_range', Nat.sub_zero]

theorem paddedLen_eq_bufLen (P : Params) {pts : List Breakpoint} {final : Breakpoint}
    (hbs : 1 ≤ P.bs) (hfinal : pts.getLast? = some final) :
    paddedLen P final.frame = bufLen P (spanOf pts) := by
  simp [paddedLen, bufLen, spanOf, hfinal, Nat.add_sub_assoc hbs]

/-- Settles O41: the buffer is the list of its samples, and those are known on each segment and on
the padding. -/
theorem bufferFilledEqualsOnDemand : Obligations.BufferFilledEqualsOnDemand := by
  intro P pts final hbs _ h0 hord hfinal
  have hfill := bufFill_eq_map_sampleAt P pts hbs h0 hord
  rw [paddedLen_eq_bufLen P hbs hfinal]
  have hsample (j : Nat) (hj : j < bufLen P (spanOf pts)) :
      (bufFill P pts)[j]? = some (sampleAt pts j) := by
    rw [hfill, List.getElem?_map, List.getElem?_range hj, Option.map_some]
  refine ⟨by rw [hfill, List.length_map, List.length_range], hsample, ?_, fun j hge hlt => ?_⟩
  · rintro before p q after rfl j hj
    have hp : 0 ≤ p.frame := h0.ge.trans (firstFrame_le hord)
    have hq : q.frame.toNat ≤ spanOf (before ++ p :: q :: after) :=
      toNat_frame_le_spanOf hord (by simp)
    have hlen := (bufLen_spec P (spanOf (before ++ p :: q :: after)) hbs).2.1
    rw [hsample _ (by omega), sampleAt_segment hord hp hj, segSample, segStep]
  · have hspan : spanOf pts ≤ j := by simpa [spanOf, hfinal] using hge
    rw [hsample j hlt, sampleAt_of_spanOf_le hord hspan]
    simp [finalValue, hfinal]

/-- Settles O42: a returned envelope is the one env_make makes, of the padded length. -/
theorem envelopeLengthProperty : Obligations.EnvelopeLengthProperty := by
  intro P pts stored e hbs he
  obtain ⟨-, hok⟩ | ⟨-, herr⟩ := envBuild_cases P pts stored
  · obtain rfl : envMake P pts = e := Except.ok.inj (hok.symm.trans he)
    obtain ⟨hmod, hle, -⟩ := bufLen_spec P (spanOf pts) hbs
    exact ⟨hmod, hle⟩
  · exact nomatch herr.symm.trans he

/-! ### Joins (R173) -/

/-- R14, R301, R302: a difference is finite only when its second operand is. -/
theorem isFinite_of_sub64 (a b : F64) (h : (sub64 a b).isFinite = true) : b.isFinite = true := by
  cases b with
  | nan _ _ => cases a <;> exact h
  | inf s =>
    cases a with
    | nan _ _ => exact h
    | inf t => cases s <;> cases t <;> exact h
    | fin _ _ _ => exact h
  | fin _ _ _ => rfl

/-- R14, R302: a quotient is finite only when its dividend is. -/
theorem isFinite_of_div64 (a b : F64) (h : (div64 a b).isFinite = true) : a.isFinite = true := by
  cases a with
  | nan _ _ => exact h
  | inf _ => cases b <;> exact h
  | fin _ _ _ => rfl

/-- R173: sample 0 of a segment is its first value exactly: the step is multiplied by 0, and a zero
is added. -/
theorem segSample_zero (p q : Breakpoint) (hstep : (segStep p q).isFinite = true)
    (hvalue : p.value ≠ .negZero) : segSample p q 0 = p.value := by
  have hp : p.value.isFinite = true := isFinite_of_sub64 _ _ (isFinite_of_div64 _ _ hstep)
  obtain ⟨s, e, f, heq⟩ := (isFinite_iff _).mp hstep
  rw [segSample, heq, i2f_zero, mul64_posZero_fin]
  exact addingZeroIsExact s p.value hp hvalue

/-- Settles O43: the sample at the join is sample 0 of the following segment. -/
theorem envelopeJoinExact : Obligations.EnvelopeJoinExact := by
  intro before p q after _ h0 hord hlt hstep hvalue
  have hp : 0 ≤ p.frame := h0.ge.trans (firstFrame_le hord)
  have hseg := sampleAt_segment (j := 0) hord hp (by omega)
  rw [Nat.add_zero] at hseg
  rw [hseg, segSample_zero p q hstep hvalue]

/-! ### Blocks and steps (R169, R171, R193–R195) -/

/-- R169: a slice holds the samples from the cursor in order. -/
theorem slice_getElem? (P : Params) (e : Envelope) {i : Nat} (hi : i < P.bs) :
    (e.slice P)[i]? = some (e.sample (e.cursor + i)) := by
  rw [Envelope.slice, List.getElem?_map, List.getElem?_range hi, Option.map_some]

/-- Settles O44: the cursor says which of the two cases of a step applies. -/
theorem envelopePlayback : Obligations.EnvelopePlayback := by
  intro P e
  obtain ⟨hlt, hstep⟩ | ⟨hge, hstep⟩ := envStep_cases P e
  · exact ⟨fun _ => ⟨e.slice P, hstep, slice_length P e, fun i => slice_getElem? P e⟩,
      fun hge => absurd hlt (Nat.not_lt.mpr hge)⟩
  · exact ⟨fun hlt => absurd hlt (Nat.not_lt.mpr hge), fun _ => hstep⟩

/-- R171: the last sample of a full block is the one at BS − 1. -/
theorem lastSample_full (P : Params) {v : List F64} {x : F64} (h : v[P.bs - 1]? = some x) :
    (Block.full v).lastSample P = x := by
  rw [Block.lastSample, List.getD_eq_getElem?_getD, h, Option.getD_some]

theorem adsrStep_idle (P : Params) {a : Adsr} (h : a.state = .idle) :
    adsrStep P a = adsrStepIdle P a := by
  rw [adsrStep, h]

theorem adsrStep_active (P : Params) {a : Adsr} (h : a.state = .active) :
    adsrStep P a = adsrStepActive P a := by
  rw [adsrStep, h]

theorem adsrStep_releasing (P : Params) {a : Adsr} (h : a.state = .releasing) :
    adsrStep P a = adsrStepReleasing P a := by
  rw [adsrStep, h]

/-- Settles O45: each state has its own step; equality with +0.0 is being a zero of either sign. -/
theorem adsrStepByState : Obligations.AdsrStepByState := by
  refine ⟨fun P v x _ hx => ⟨rfl, lastSample_full P hx⟩, fun P x => ⟨rfl, rfl⟩,
    fun P a => ⟨adsrStep_idle P, adsrStep_active P, ?_⟩⟩
  rintro hrel _ rfl
  rw [adsrStep_releasing P hrel, adsrStepReleasing]
  simp only [eq64_zero]

end Sys2Proof.Machine
end

section
/-! SUPPORT. A released ADSR plays its release buffer to the end, and then holds 0 (R195, R197). -/

namespace Sys2Proof.Machine

/-! ### One step in state releasing (R195) -/

theorem adsrStep_rel_of_releasing (P : Params) {a : Adsr} (h : a.state = .releasing) :
    (adsrStep P a).1.rel = (envStep P a.rel).1 := by
  rw [adsrStep_releasing P h, adsrStepReleasing]

theorem adsrStep_block_of_releasing (P : Params) {a : Adsr} (h : a.state = .releasing) :
    (adsrStep P a).2 = (envStep P a.rel).2 := by
  rw [adsrStep_releasing P h, adsrStepReleasing]

theorem adsrStep_state_of_releasing (P : Params) {a : Adsr} (h : a.state = .releasing) :
    (adsrStep P a).1.state =
      if eq64 ((adsrStep P a).2.lastSample P) .posZero then .idle else .releasing := by
  rw [adsrStep_releasing P h, adsrStepReleasing]

/-- R169, R195: a block that does not end in 0 came out of the buffer, as past its end the release
envelope holds +0.0. -/
theorem rel_cursor_lt_of_lastSample_ne_zero (P : Params) {a : Adsr} (h : a.state = .releasing)
    (hlast : a.rel.last = .posZero) (hne : ¬ eq64 ((adsrStep P a).2.lastSample P) .posZero = true) :
    a.rel.cursor < a.rel.len ∧
      (adsrStep P a).1.rel = { a.rel with cursor := a.rel.cursor + P.bs } := by
  rw [adsrStep_block_of_releasing P h] at hne
  rw [adsrStep_rel_of_releasing P h]
  obtain ⟨hlt, hstep⟩ | ⟨-, hstep⟩ := envStep_cases P a.rel
  · exact ⟨hlt, by rw [hstep]⟩
  · rw [hstep, hlast] at hne
    exact absurd ((eq64_zero .posZero).mpr (.inl rfl)) hne

/-! ### The whole release (R197) -/

/-- From `a` the ADSR is releasing through k steps, and step k + 1, whose block ends in 0, makes it
idle (R197). -/
def Adsr.ReleaseEndsAt (P : Params) (a : Adsr) (k : Nat) : Prop :=
  (∀ j, j ≤ k → ((fun x => (adsrStep P x).1)^[j] a).state = .releasing) ∧
  ((fun x => (adsrStep P x).1)^[k + 1] a).state = .idle ∧
  eq64 ((adsrStep P ((fun x => (adsrStep P x).1)^[k] a)).2.lastSample P) .posZero = true

theorem Adsr.releaseEndsAt_zero (P : Params) {a : Adsr} (h : a.state = .releasing)
    (hzero : eq64 ((adsrStep P a).2.lastSample P) .posZero = true) : a.ReleaseEndsAt P 0 := by
  refine ⟨fun j hj => ?_, ?_, hzero⟩
  · rw [Nat.le_zero.mp hj]
    exact h
  · exact (adsrStep_state_of_releasing P h).trans (if_pos hzero)

theorem Adsr.releaseEndsAt_succ (P : Params) {a : Adsr} {k : Nat} (h : a.state = .releasing)
    (hnext : (adsrStep P a).1.ReleaseEndsAt P k) : a.ReleaseEndsAt P (k + 1) := by
  obtain ⟨hreleasing, hidle, hzero⟩ := hnext
  refine ⟨fun j hj => ?_, hidle, hzero⟩
  cases j with
  | zero => exact h
  | succ j => exact hreleasing j (Nat.le_of_succ_le_succ hj)

/-- R197: a releasing ADSR with at most m blocks of its release buffer to play is idle after at
most m + 1 steps. -/
theorem Adsr.exists_releaseEndsAt (P : Params) (m : Nat) (a : Adsr) (h : a.state = .releasing)
    (hlast : a.rel.last = .posZero) (hleft : a.rel.len ≤ a.rel.cursor + m * P.bs) :
    ∃ k, k ≤ m ∧ a.ReleaseEndsAt P k := by
  induction m generalizing a with
  | zero =>
    refine ⟨0, le_rfl, Adsr.releaseEndsAt_zero P h (by_contra fun hne => ?_)⟩
    have hlt := (rel_cursor_lt_of_lastSample_ne_zero P h hlast hne).1
    omega
  | succ m ih =>
    by_cases hzero : eq64 ((adsrStep P a).2.lastSample P) .posZero = true
    · exact ⟨0, Nat.zero_le _, Adsr.releaseEndsAt_zero P h hzero⟩
    · have hstate := (adsrStep_state_of_releasing P h).trans (if_neg hzero)
      obtain ⟨-, hrel⟩ := rel_cursor_lt_of_lastSample_ne_zero P h hlast hzero
      have hleft' : (adsrStep P a).1.rel.len ≤ (adsrStep P a).1.rel.cursor + m * P.bs := by
        rw [hrel]
        calc a.rel.len ≤ a.rel.cursor + (m + 1) * P.bs := hleft
          _ = a.rel.cursor + P.bs + m * P.bs := by ring
      obtain ⟨k, hk, hend⟩ := ih _ hstate (by rw [hrel, hlast]) hleft'
      exact ⟨k + 1, Nat.succ_le_succ hk, Adsr.releaseEndsAt_succ P h hend⟩

/-- Settles O46: adsr_release leaves L_REL / BS blocks of the release buffer to play. -/
theorem adsrReleaseTerminates : Obligations.AdsrReleaseTerminates := by
  intro P a _ hmod hlast
  have hblocks : a.rel.len ≤ 0 + a.rel.len / P.bs * P.bs := by
    rw [Nat.zero_add, Nat.div_mul_cancel (Nat.dvd_of_mod_eq_zero hmod)]
  obtain ⟨k, hk, hend⟩ := (adsrRelease a).exists_releaseEndsAt P _ rfl hlast hblocks
  exact ⟨k, Nat.lt_succ_of_le hk, hend⟩

end Sys2Proof.Machine
end

section
/-! SUPPORT. A voice's block sample by sample, the ADSR block broadcast where it holds (R211, R212). -/

namespace Sys2Proof.Machine

/-- R211: two blocks that both reach position i have the product of their samples there. -/
theorem mulBlocks_getElem? {a b : List F64} {i : Nat} {x y : F64} (hx : a[i]? = some x)
    (hy : b[i]? = some y) : (mulBlocks a b)[i]? = some (mul64 x y) := by
  rw [mulBlocks, List.getElem?_zipWith, hx, hy]

/-- R171, R212: a hold block broadcast has its value at every position of a block. -/
theorem vals_hold_getElem? (P : Params) (x : F64) {i : Nat} (hi : i < P.bs) :
    ((Block.hold x).vals P)[i]? = some x := by
  rw [Block.vals, List.getElem?_replicate_of_lt hi]

/-- An FM block has samples at the positions below BS only. -/
theorem lt_bs_of_fmStep_getElem? (P : Params) {o : FmOsc} {i : Nat} {f : F64}
    (hf : (fmStep P o).2[i]? = some f) : i < P.bs := by
  rw [← fmStep_length P o]
  exact (List.getElem?_eq_some_iff.mp hf).choose

/-- R211: where the FM block and the broadcast ADSR block have samples, the voice's is their
product. -/
theorem voiceStep_getElem? (P : Params) (v : Voice) {i : Nat} {f e : F64}
    (hf : (fmStep P v.fm).2[i]? = some f) (he : ((adsrStep P v.adsr).2.vals P)[i]? = some e) :
    (voiceStep P v).2[i]? = some (mul64 f e) :=
  mulBlocks_getElem? hf he

/-- Settles O49: the record is the step's own; a sample of the block is the FM sample times the
sample of the ADSR's block, which is the held value or the full block's sample. -/
theorem voiceBlock : Obligations.VoiceBlock := by
  intro P v
  have hrec := voiceStep_record P v
  refine ⟨congrArg Voice.fm hrec, congrArg Voice.adsr hrec, congrArg Voice.state hrec,
    voiceStep_length P v,
    fun i f x hf hhold => ?_, fun i f e w hf hfull he => ?_⟩
  · refine voiceStep_getElem? P v hf ?_
    rw [hhold]
    exact vals_hold_getElem? P x (lt_bs_of_fmStep_getElem? P hf)
  · refine voiceStep_getElem? P v hf ?_
    rw [hfull]
    exact he

end Sys2Proof.Machine
end

section
/-! SUPPORT. A command in flight stays in flight through the host's accesses until the CORE's turn,
whose completion always answers a next state (R240, R286). -/

namespace Sys2Proof.Machine

/-! ### The CORE's turn (R240) -/

/-- Settles O5: the CORE's turn runs the word, and every command answers a next state. -/
theorem stepRunsPendingCommand : Obligations.StepRunsPendingCommand := by
  intro s rest w i hn hb hp hd
  obtain ⟨t, ht⟩ := exec_next i { s with agenda := rest }
  obtain ⟨-, -, hcommand, -⟩ := stepTakesFirstEvent
  rw [hcommand s rest w i t hn hb hp hd ht, ht]

/-- R240: the completion of a pending word, legal or not, clears PENDING and BUSY. -/
theorem exists_coreTurn_of_pending {s : State} {w : Word64} (hb : s.busy = true)
    (hp : s.pending = some w) :
    ∃ t, coreTurn s = .next t ∧ t.busy = false ∧ t.pending = none := by
  obtain ⟨t, -, hc⟩ := complete_some s w hp
  exact ⟨t.finishCommand, (if_pos hb).trans hc, rfl, rfl⟩

/-- R35: in a good state BUSY = 1 means that a command is pending. -/
theorem State.Inv.exists_coreTurn {s : State} (h : s.Inv) :
    ∃ t, Machine.coreTurn s = .next t := by
  by_cases hb : s.busy = true
  · obtain ⟨w, hp⟩ := Option.isSome_iff_exists.mp (h.busy_iff_pending.symm.trans hb)
    exact (exists_coreTurn_of_pending hb hp).imp fun _ ht => ht.1
  · exact ⟨s, if_neg hb⟩

/-- Settles O40: only a turn of the CORE could stop, and in a good state it does not. -/
theorem goodStatesNeverStop : Obligations.GoodStatesNeverStop := by
  intro s h
  rcases step_cases s with ⟨-, hs⟩ | ⟨rest, -, hs⟩ | ⟨_, _, _, -, hs⟩ | ⟨_, _, _, _, -, hs⟩ |
    ⟨_, -, hs⟩ | ⟨_, -, hs⟩ <;> rw [hs]
  · exact h.exists_coreTurn
  · exact (h.setAgenda rest).exists_coreTurn
  all_goals exact ⟨_, rfl⟩

/-! ### Host accesses while a command is in flight (R73, R286) -/

/-- The command word `w` is in flight and `es` are the events to come. -/
structure State.InFlight (s : State) (w : Word64) (es : List Event) : Prop where
  busy : s.busy = true
  pending : s.pending = some w
  agenda : s.agenda = es

section
variable {s : State} {w : Word64} {es : List Event} (h : s.InFlight w es)
include h

theorem State.InFlight.setAgenda (es' : List Event) : (s.setAgenda es').InFlight w es' :=
  { h with agenda := rfl }

theorem State.InFlight.raise (c : FaultCode) (note : BitVec 8) (op : BitVec 4) (off : BitVec 16) :
    (s.raise c note op off).InFlight w es := { h with }

theorem State.InFlight.answerAny : s.answerAny.InFlight w es := { h with }

theorem State.InFlight.hostRead (off : BitVec 16) (width : Nat) :
    (hostRead s off width).InFlight w es := by
  rcases hostRead_cases s off width with ⟨-, hr⟩ | ⟨-, -, hr⟩ | ⟨r, -, -, hr⟩ <;> rw [hr]
  · exact (h.raise _ _ _ _).answerAny
  · exact h.answerAny
  · exact { h with }

/-- R73: no write reaches CMD while BUSY = 1. -/
theorem State.InFlight.hostWrite (off : BitVec 16) (width : Nat) (v : Word64) :
    (hostWrite s off width v).InFlight w es := by
  rcases hostWrite_cases s off width v with
    ⟨-, hw⟩ | ⟨-, -, hw⟩ | ⟨-, -, hw⟩ | ⟨-, -, -, hw⟩ | ⟨-, hidle, -⟩
  · rwa [hw]
  · rw [hw]
    exact h.raise _ _ _ _
  · rw [hw]
    exact h.raise _ _ _ _
  · rw [hw]
    exact h.raise _ _ _ _
  · exact absurd h.busy (Bool.eq_false_iff.mp hidle)

theorem State.InFlight.busRead (addr width : Nat) : (busRead s addr width).InFlight w es := by
  unfold Machine.busRead
  split
  · exact h.answerAny
  · exact h.hostRead _ _

theorem State.InFlight.busWrite (addr width : Nat) (v : Word64) :
    (busWrite s addr width v).InFlight w es := by
  unfold Machine.busWrite
  split
  · exact h
  · exact h.hostWrite _ _ _

/-- R121: a WAIT with a command in flight gives the CORE its turn. -/
theorem State.InFlight.waitPoll (rest : List Event) :
    (waitPoll s rest).InFlight w (.core :: .wait :: rest) := by
  rw [Machine.waitPoll, if_pos h.busy]
  exact (h.hostRead _ _).setAgenda _

end

/-! ### Runs to the CORE's turn (R240) -/

/-- A run that answers a state goes on with that state's step. -/
theorem run_succ_right (M : Host.Core) {k : Nat} {s u : M.State} (hrun : M.run k s = .next u) :
    M.run (k + 1) s = M.step u := by
  induction k generalizing s with
  | zero =>
    cases hrun
    rw [Host.Core.run]
    cases M.step u <;> rfl
  | succ k ih =>
    cases hs : M.step s with
    | next s' =>
      simp only [Host.Core.run, hs] at hrun
      rw [Host.Core.run, hs]
      exact ih hrun
    | fault f => simp [Host.Core.run, hs] at hrun
    | refused r => simp [Host.Core.run, hs] at hrun

/-- How the flight of the word `w` ends, the events `es` being to come at its start: the CORE's turn
comes with `w` still pending, or one of `es` is a reset and has discarded it (R240, R320). -/
def FlightEnds (w : Word64) (es : List Event) (u : State) : Prop :=
  (∃ rest, CoreNext u rest ∧ u.busy = true ∧ u.pending = some w) ∨
  (Event.reset ∈ es ∧ u.busy = false ∧ u.pending = none)

theorem State.InFlight.flightEnds {s : State} {w : Word64} {es rest : List Event}
    (h : s.InFlight w es) (hn : CoreNext s rest) (es' : List Event) : FlightEnds w es' s :=
  .inl ⟨rest, hn, h.busy, h.pending⟩

theorem FlightEnds.cons {w : Word64} {es : List Event} {u : State} (h : FlightEnds w es u)
    (e : Event) : FlightEnds w (e :: es) u :=
  h.imp_right fun ⟨hmem, hidle⟩ => ⟨List.mem_cons_of_mem e hmem, hidle⟩

/-- From `s` the flight of `w` ends within a step for each of the events `es` to come. -/
def FlightEndsFrom (w : Word64) (es : List Event) (s : State) : Prop :=
  ∃ k u, k ≤ es.length ∧ core.run k s = .next u ∧ FlightEnds w es u

theorem FlightEndsFrom.now {w : Word64} {es : List Event} {s : State} (h : FlightEnds w es s) :
    FlightEndsFrom w es s := ⟨0, s, Nat.zero_le _, rfl, h⟩

theorem FlightEndsFrom.next {w : Word64} {es : List Event} {e : Event} {s t : State}
    (hstep : step s = .next t) (h : FlightEnds w (e :: es) t) : FlightEndsFrom w (e :: es) s :=
  ⟨1, t, Nat.succ_le_succ (Nat.zero_le _), core_run_succ 0 s t hstep, h⟩

theorem FlightEndsFrom.cons {w : Word64} {es : List Event} {e : Event} {s t : State}
    (hstep : step s = .next t) (h : FlightEndsFrom w es t) : FlightEndsFrom w (e :: es) s := by
  obtain ⟨k, u, hk, hrun, hend⟩ := h
  exact ⟨k + 1, u, Nat.succ_le_succ hk, (core_run_succ k s t hstep).trans hrun, hend.cons e⟩

/-- R240, R286: host accesses keep the command in flight until the CORE's turn or a reset. -/
theorem State.InFlight.flightEndsFrom {s : State} {w : Word64} {es : List Event}
    (h : s.InFlight w es) : FlightEndsFrom w es s := by
  induction es generalizing s with
  | nil => exact .now (h.flightEnds (.inr ⟨h.agenda, rfl⟩) [])
  | cons e rest ih =>
    cases e with
    | core => exact .now (h.flightEnds (.inl h.agenda) _)
    | read addr width =>
      exact .cons (step_read h.agenda) (ih ((h.setAgenda rest).busRead addr width))
    | write addr width v =>
      exact .cons (step_write h.agenda) (ih ((h.setAgenda rest).busWrite addr width v))
    | wait =>
      have hpoll := h.waitPoll rest
      exact .next (step_wait h.agenda) (hpoll.flightEnds (.inl hpoll.agenda) _)
    | reset => exact .next (step_reset h.agenda) (.inr ⟨List.mem_cons_self, rfl, rfl⟩)

/-- Settles O8: the flight ends within a step for each event, and where it ends at the CORE's turn
one step more completes the command. -/
theorem issuedCommandCompletes : Obligations.IssuedCommandCompletes := by
  intro s w hb hp
  have hflight : s.InFlight w s.agenda := ⟨hb, hp, rfl⟩
  obtain ⟨k, u, hk, hrun, ⟨rest, hn, hub, hup⟩ | ⟨hreset, hub, hup⟩⟩ := hflight.flightEndsFrom
  · obtain ⟨t, ht, htb, htp⟩ := exists_coreTurn_of_pending (s := { u with agenda := rest }) hub hup
    have hlast : core.run (k + 1) s = .next t :=
      (run_succ_right core hrun).trans ((step_of_coreNext hn).trans ht)
    exact ⟨⟨k + 1, by omega, t, hlast, htb, htp⟩,
      fun _ => ⟨k, rest, u, by omega, hrun, hn, hub, hup⟩⟩
  · exact ⟨⟨k, by omega, u, hrun, hub, hup⟩, fun hno => absurd hreset hno⟩

end Sys2Proof.Machine
end

section
/-! SUPPORT. The commands with a note operand other than NOTE_ON, and that each keeps to its own
slot (R250–R264). -/

namespace Sys2Proof.Machine

/-! ### The slot file (R36) -/

/-- A slot written back as it was leaves the slot file, in range or not. -/
theorem set_getD_self (slots : List Slot) (n : Nat) (d : Slot) :
    slots.set n (slots.getD n d) = slots := by
  by_cases hn : n < slots.length
  · rw [List.getD_eq_getElem _ _ hn, List.set_getElem_self]
  · exact List.set_eq_of_length_le (Nat.le_of_not_lt hn)

theorem State.setSlot_slot_self (s : State) (n : Nat) : s.setSlot n (s.slot n) = s := by
  rw [State.setSlot, State.slot, set_getD_self]

theorem Slot.live_iff (sl : Slot) : sl.live = true ↔ sl.mapped = true ∧ sl.voice.state = .on := by
  simp [Slot.live]

/-- Settles O23: each state such a command can leave has slot n alone rewritten, if any. -/
theorem commandsTouchOwnSlotOnly : Obligations.CommandsTouchOwnSlotOnly := by
  intro i s k hnext hstop hk
  obtain ⟨t, ht, hr⟩ := exec_result i s
  refine ⟨t, ht, ?_⟩
  cases hr with
  | fault n c => rfl
  | install n a => exact s.slot_setSlot_ne n k _ hk
  | edit _ sl => exact s.slot_setSlot_ne i.note k sl hk
  | ignore => rfl
  | mix => exact absurd rfl hnext
  | silence => exact absurd rfl hstop

/-! ### NOTE_OFF (R255) -/

theorem noteOffSlot_of_not_live {sl : Slot} (h : ¬sl.live = true) : noteOffSlot sl = sl :=
  if_neg h

/-- Settles O14: in range the slot is rewritten, by itself where its voice is not live. -/
theorem noteOffReleasesLiveVoice : Obligations.NoteOffReleasesLiveVoice := by
  intro s n
  refine congrArg Host.Outcome.next ?_
  by_cases hn : n < s.params.nNotes
  · rw [if_pos hn]
    by_cases hlive : (s.slot n).live = true
    · rw [if_pos ⟨hn, (s.slot n).live_iff.mp hlive⟩, noteOffSlot, if_pos hlive]
      rfl
    · rw [if_neg fun h => hlive ((s.slot n).live_iff.mpr h.2), noteOffSlot_of_not_live hlive,
        State.setSlot_slot_self]
  · rw [if_neg hn, if_neg fun h => hn h.1]

/-! ### SET_AMP, SET_FM, SET_BETA (R262–R264) -/

section
variable {n : Nat} {s : State}

theorem updateMapped_of_mapped (f : Voice → Voice)
    (h : n < s.params.nNotes ∧ (s.slot n).mapped = true) :
    updateMapped n f s = s.setSlot n { s.slot n with voice := f (s.slot n).voice } :=
  if_pos h

theorem updateMapped_of_not_mapped (f : Voice → Voice)
    (h : ¬(n < s.params.nNotes ∧ (s.slot n).mapped = true)) : updateMapped n f s = s :=
  if_neg h

end

/-- Settles O19: `updateMapped` with the voice's carrier amplitude. -/
theorem setAmpWritesCarrierAmplitude : Obligations.SetAmpWritesCarrierAmplitude := fun s _ =>
  ⟨fun h => congrArg Host.Outcome.next (updateMapped_of_mapped (voiceSetAmp · s.arg) h),
    fun h => congrArg Host.Outcome.next (updateMapped_of_not_mapped (voiceSetAmp · s.arg) h)⟩

/-- Settles O20: `updateMapped` with the modulator's frequency. -/
theorem setFmWritesModulatorFrequency : Obligations.SetFmWritesModulatorFrequency := fun s _ =>
  ⟨fun h => congrArg Host.Outcome.next (updateMapped_of_mapped (voiceSetFm · s.arg) h),
    fun h => congrArg Host.Outcome.next (updateMapped_of_not_mapped (voiceSetFm · s.arg) h)⟩

/-- Settles O21: `updateMapped` with the modulator's amplitude. -/
theorem setBetaWritesModulationIndex : Obligations.SetBetaWritesModulationIndex := fun s _ =>
  ⟨fun h => congrArg Host.Outcome.next (updateMapped_of_mapped (voiceSetBeta · s.arg) h),
    fun h => congrArg Host.Outcome.next (updateMapped_of_not_mapped (voiceSetBeta · s.arg) h)⟩

end Sys2Proof.Machine
end

section
/-! SUPPORT. NOTE_ON: the voice an accepted command builds, the crossfade of the voice it replaces,
and the fault of a note outside the table (R190, R250, R251). -/

namespace Sys2Proof.Machine

/-! ### The voice of an accepted NOTE_ON (R161, R168, R190, R250) -/

theorem frames_eq_ok {P : Params} {t : F64} {x : Int} (hfinite : (timeProduct P t).isFinite = true)
    (hframe : frameOf P t = x) : frames P t = .ok x :=
  hframe ▸ if_pos hfinite

theorem envFits_eq_fitsBound (P : Params) (len : Nat) : envFits P len = fitsBound P len := by
  unfold envFits fitsBound
  cases P.envMax <;> rfl

/-- R164, R167: the record of a list of breakpoints, by its last one. -/
theorem envMake_eq (P : Params) {pts : List Breakpoint} {final : Breakpoint} (hbs : 1 ≤ P.bs)
    (hfinal : pts.getLast? = some final) : envMake P pts =
      { points := pts, len := paddedLen P final.frame, last := final.value, cursor := 0 } := by
  rw [envMake, paddedLen_eq_bufLen P hbs hfinal, finalValue, hfinal]
  rfl

/-- R162, R163, R166, R168: a stored envelope that starts at frame 0, runs forward and fits. -/
theorem envBuild_eq_ok (P : Params) {pts : List Breakpoint} {final : Breakpoint} (hbs : 1 ≤ P.bs)
    (h0 : firstFrame pts = 0) (hord : framesOrdered pts = true)
    (hfinal : pts.getLast? = some final)
    (hfits : fitsBound P (paddedLen P final.frame) = true) :
    envBuild P pts true = .ok (envMake P pts) := by
  have hcheck : envCheck P pts true = .none := by
    rw [envCheck_none_iff, envFits_eq_fitsBound, ← paddedLen_eq_bufLen P hbs hfinal]
    exact ⟨h0, hord, fun _ => hfits⟩
  rw [envBuild, hcheck]

section
variable {s : State} {n : Nat} {a1 a2 r1 : Int} (hP : s.params.Legal)
  (h : NoteOnAccepts s n a1 a2 r1)
include hP h

/-- R190: the ADSR of an accepted NOTE_ON. -/
theorem NoteOnAccepts.adsrBuild_eq_ok :
    adsrBuild s.params s.cfgAttack s.cfgDecay s.cfgSustain s.cfgRelease = .ok
      { state := .idle, last := .posZero, ad := envMake s.params (adPoints 0 a1 a2 s.cfgSustain),
        rel := envMake s.params (relPoints 0 r1 s.cfgSustain) } := by
  obtain ⟨⟨-, hsr⟩, ⟨hbs, -⟩, -⟩ := hP
  have hzero := frames_posZero s.params hsr
  have hattack := frames_eq_ok h.attack h.attack_frame
  have hdecay := frames_eq_ok h.decay h.decay_frame
  have hrelease := frames_eq_ok h.release h.release_frame
  have had := envBuild_eq_ok s.params (pts := adPoints 0 a1 a2 s.cfgSustain) hbs rfl
    (by simp [adPoints, framesOrdered, h.attack_forward, h.decay_forward]) rfl h.ad_fits
  have hrel := envBuild_eq_ok s.params (pts := relPoints 0 r1 s.cfgSustain) hbs rfl
    (by simp [relPoints, framesOrdered, h.release_forward]) rfl h.rel_fits
  simp [adsrBuild, hzero, hattack, hdecay, hrelease, had, hrel, bind, Except.bind, pure,
    Except.pure]

/-- R250, R190, R210: the voice of an accepted NOTE_ON. -/
theorem NoteOnAccepts.exists_adsr :
    ∃ a, noteOnAdsr s n = .ok a ∧ noteOnVoice s n a = newVoice s n a1 a2 r1 := by
  have hbs : 1 ≤ s.params.bs := hP.2.1.1
  have hadsr : noteOnAdsr s n = _ := (if_neg (Nat.not_le.mpr h.note)).trans (h.adsrBuild_eq_ok hP)
  rw [envMake_eq s.params (pts := adPoints 0 a1 a2 s.cfgSustain) hbs rfl,
    envMake_eq s.params (pts := relPoints 0 r1 s.cfgSustain) hbs rfl] at hadsr
  exact ⟨_, hadsr, rfl⟩

/-- R250: an accepted NOTE_ON puts the new voice into slot n. -/
theorem NoteOnAccepts.exec_eq : exec (.noteOn n) s =
    .next (s.setSlot n (noteOnSlot s.params (s.slot n) (newVoice s n a1 a2 r1))) := by
  obtain ⟨a, ha, hvoice⟩ := h.exists_adsr hP
  rw [← hvoice, exec, execNoteOn, ha]

end

/-! ### The crossfade (R251) -/

/-- R251: the fade envelope is one block long, and its block is R165's formula. -/
theorem fadeBlock_eq (P : Params) (a : F64) (hbs : 1 ≤ P.bs) :
    fadeBlock P a = (List.range P.bs).map (fadeSample P a) := by
  have hlen : (envMake P (fadePoints P a)).len = P.bs := by
    simpa [envMake, spanOf, fadePoints] using bufLen_mul P 1 hbs
  have hplays : (envMake P (fadePoints P a)).cursor < (envMake P (fadePoints P a)).len := by
    rw [hlen]
    exact hbs
  rw [fadeBlock, envStep, if_pos hplays]
  refine List.map_congr_left fun i hi => ?_
  have hlt : (i : Int) < P.bs := Int.ofNat_lt.mpr (List.mem_range.mp hi)
  calc (envMake P (fadePoints P a)).sample (0 + i)
      = sampleAt (fadePoints P a) i := by rw [Nat.zero_add]; rfl
    _ = segSample ⟨0, a⟩ ⟨P.bs, .posZero⟩ ((i : Int) - 0).toNat := sampleAt_of_lt _ _ _ hlt
    _ = fadeSample P a i := by simp [segSample, segStep, fadeSample]

theorem noteOnSlot_of_not_live (P : Params) {sl : Slot} (v : Voice) (h : ¬sl.live = true) :
    noteOnSlot P sl v = { sl with mapped := true, voice := v } := by
  rw [noteOnSlot, if_neg h]

theorem noteOnSlot_of_live (P : Params) {sl : Slot} (v : Voice) (h : sl.live = true) :
    noteOnSlot P sl v =
      { mapped := true
        tailValid := true
        tail := mulBlocks (fadeBlock P sl.voice.adsr.last) (voiceStep P sl.voice).2
        voice := v } := by
  rw [noteOnSlot, if_pos h]
  rfl

/-- Settles O10: without a live voice the new one is put into the slot as it stands. -/
theorem noteOnStartsVoice : Obligations.NoteOnStartsVoice := by
  intro s n a1 a2 r1 hP haccepts hdead
  rw [← Slot.live_iff] at hdead
  rw [haccepts.exec_eq hP, noteOnSlot_of_not_live _ _ hdead]
  rfl

/-- Settles O11: a live voice is stepped once more for the tail, then replaced. -/
theorem noteOnCrossfadesLiveVoice : Obligations.NoteOnCrossfadesLiveVoice := by
  intro s n a1 a2 r1 hP haccepts hmapped hon
  have hlive := (s.slot n).live_iff.mpr ⟨hmapped, hon⟩
  rw [haccepts.exec_eq hP, noteOnSlot_of_live _ _ hlive, fadeBlock_eq _ _ hP.2.1.1]
  rfl

/-! ### A note outside the table (R250, R283) -/

/-- Settles O12: the range check is NOTE_ON's first, and its fault is the first one recorded. -/
theorem noteOnOutOfRangeFaults : Obligations.NoteOnOutOfRangeFaults := by
  intro s n hn hclean
  have hadsr : noteOnAdsr s n = .error .noteRange := if_pos hn
  have hexec : exec (.noteOn n) s = .next (s.raiseCommand .noteRange n 1) := by
    rw [exec, execNoteOn, hadsr]
  rw [hexec, State.raiseCommand_eq, State.raise_eq_firstFault, if_pos hclean]
  rfl

end Sys2Proof.Machine
end

section
/-! SUPPORT. NEXT's loop over a MIX_ORDER without repetitions is a map of the slot file and a fold
of the slots' blocks (R257, R258); with nothing mapped it changes nothing (R260). -/

namespace Sys2Proof.Machine

/-! ### One visit (R257, R258) -/

/-- R257, R258: a visit leaves what the slot alone decides, and adds its contribution. -/
theorem visitSlot_eq (P : Params) (sl : Slot) :
    visitSlot P sl = (slotAfterNext P sl, slotContribution P sl) := by
  rcases visitSlot_cases P sl with ⟨hm, h⟩ | ⟨hm, hv, h⟩ | ⟨hl, ht, h⟩ | ⟨hl, ht, h⟩
  · simp [h, slotAfterNext, slotContribution, hm]
  · simp [h, slotAfterNext, slotContribution, hm, hv]
  all_goals
    obtain ⟨hm, hv⟩ := sl.live_iff.mp hl
    simp [h, slotAfterNext, slotContribution, hm, hv, ht]

theorem visitSlot_of_unmapped (P : Params) {sl : Slot} (h : sl.mapped = false) :
    visitSlot P sl = (sl, none) :=
  if_pos h

/-! ### The loop (R257) -/

theorem getD_set_ne {slots : List Slot} {j k : Nat} (v d : Slot) (h : k ≠ j) :
    (slots.set k v).getD j d = slots.getD j d := by
  rw [List.getD_eq_getElem?_getD, List.getElem?_set_ne h, List.getD_eq_getElem?_getD]

/-- R258: in an order without repetitions every slot contributes what it held before NEXT. -/
theorem mixLoop_mix (P : Params) (ks : List Nat) (slots : List Slot) (acc : List F64)
    (hnodup : ks.Nodup) : (mixLoop P ks slots acc).2 =
      ks.foldl (fun acc k => mixIn acc (slotContribution P (slots.getD k .blank))) acc := by
  induction ks generalizing slots acc with
  | nil => rfl
  | cons k ks ih =>
    obtain ⟨hk, hnodup⟩ := List.nodup_cons.mp hnodup
    rw [mixLoop_cons, visitSlot_eq, ih _ _ hnodup, List.foldl_cons]
    refine List.foldl_ext _ _ _ fun acc j hj => ?_
    have hne : k ≠ j := fun h => hk (h ▸ hj)
    rw [getD_set_ne _ _ hne]

/-- R257: in an order without repetitions a listed slot is visited once and no other is. -/
theorem mixLoop_slot (P : Params) (ks : List Nat) (slots : List Slot) (acc : List F64)
    (hnodup : ks.Nodup) (j : Nat) : (mixLoop P ks slots acc).1[j]? =
      if j ∈ ks then slots[j]?.map (slotAfterNext P) else slots[j]? := by
  induction ks generalizing slots acc with
  | nil => rfl
  | cons k ks ih =>
    obtain ⟨hk, hnodup⟩ := List.nodup_cons.mp hnodup
    rw [mixLoop_cons, visitSlot_eq, ih _ _ hnodup]
    by_cases hj : j = k
    · subst hj
      rw [if_neg hk, if_pos List.mem_cons_self, List.getElem?_set_self']
      cases h : slots[j]? <;> simp [List.getD_eq_getElem?_getD, h]
    · rw [List.getElem?_set_ne (Ne.symm hj)]
      simp [hj]

/-- R257: an order that lists every slot visits the whole slot file. -/
theorem mixLoop_slots (P : Params) (ks : List Nat) (slots : List Slot) (acc : List F64)
    (hnodup : ks.Nodup) (hall : ∀ j, j < slots.length → j ∈ ks) :
    (mixLoop P ks slots acc).1 = slots.map (slotAfterNext P) := by
  refine List.ext_getElem? fun j => ?_
  rw [mixLoop_slot P ks slots acc hnodup, List.getElem?_map]
  split
  · rfl
  · next hj =>
    have hout : slots.length ≤ j := Nat.le_of_not_lt fun h => hj (hall j h)
    rw [List.getElem?_eq_none hout]
    rfl

/-- R257: a slot that is not mapped is passed over. -/
theorem mixLoop_of_unmapped (P : Params) (ks : List Nat) (slots : List Slot) (acc : List F64)
    (h : ∀ sl ∈ slots, sl.mapped = false) : mixLoop P ks slots acc = (slots, acc) := by
  induction ks with
  | nil => rfl
  | cons k ks ih =>
    have hk : (slots.getD k .blank).mapped = false := by
      by_cases hlt : k < slots.length
      · rw [List.getD_eq_getElem _ _ hlt]
        exact h _ (List.getElem_mem hlt)
      · rw [List.getD_eq_default _ _ (Nat.le_of_not_lt hlt)]
        rfl
    rw [mixLoop_cons, visitSlot_of_unmapped P hk, set_getD_self]
    exact ih

/-! ### NEXT and STOP (R257, R260) -/

theorem exec_next_eq {s : State} {slots : List Slot} {out : List F64}
    (hslots : (mixLoop s.params s.params.mixOrder s.slots (zeros s.params)).1 = slots)
    (hout : (mixLoop s.params s.params.mixOrder s.slots (zeros s.params)).2 = out) :
    exec .next s = .next { s with slots := slots, out := out } := by
  rw [← hslots, ← hout]
  rfl

/-- Settles O15: MIX_ORDER is a permutation of the slot numbers, so each slot is visited once. -/
theorem nextMixesEverySlot : Obligations.NextMixesEverySlot := by
  rintro s ⟨-, -, -, -, -, hperm⟩ hlen
  have hnodup : s.params.mixOrder.Nodup := hperm.nodup_iff.mpr List.nodup_range
  refine exec_next_eq (mixLoop_slots _ _ _ _ hnodup fun j hj => ?_) (mixLoop_mix _ _ _ _ hnodup)
  rw [hperm.mem_iff, List.mem_range, ← hlen]
  exact hj

/-- Settles O16: NEXT's loop passes over every slot. -/
theorem nextSilentWhenNothingMapped : Obligations.NextSilentWhenNothingMapped := by
  intro s h
  have hloop := mixLoop_of_unmapped s.params s.params.mixOrder s.slots (zeros s.params) h
  exact exec_next_eq (congrArg Prod.fst hloop) (congrArg Prod.snd hloop)

/-- Settles O18: no slot is mapped after STOP, so the next NEXT is silent. -/
theorem stopDiscardsEverything : Obligations.StopDiscardsEverything := fun _ =>
  ⟨_, rfl, rfl, nextSilentWhenNothingMapped _ (List.forall_mem_map.mpr fun _ _ => rfl)⟩

end Sys2Proof.Machine
end

section
/-! SUPPORT. The fault record: what every step but a reset keeps of it, and of the rest of a halted
core, and the command in flight that a refused write leaves in place (R285–R287, R307). -/

namespace Sys2Proof.Machine

/-! ### A recorded fault (R285, R307) -/

/-- R285, R307: `t` is halted with the fault record of `s`. -/
structure State.KeepsFault (s t : State) : Prop where
  halted : t.halted = true
  faultCode : t.faultCode = s.faultCode
  faultNote : t.faultNote = s.faultNote
  faultOp : t.faultOp = s.faultOp
  faultOff : t.faultOff = s.faultOff

theorem State.KeepsFault.refl {s : State} (hh : s.halted = true) : s.KeepsFault s :=
  ⟨hh, rfl, rfl, rfl, rfl⟩

/-- R285: once a fault is recorded, the fault action changes nothing of a halted core. -/
theorem State.raise_of_recorded {s : State} (hh : s.halted = true) (hc : s.faultCode ≠ .none)
    (c : FaultCode) (note : BitVec 8) (op : BitVec 4) (off : BitVec 16) :
    s.raise c note op off = s := by
  rw [State.raise_eq_firstFault, if_neg hc, ← hh]

/-- R285: no command changes a recorded fault. -/
theorem CommandResult.keepsFault {s t : State} {i : Instr} (hr : CommandResult s i t)
    (hh : s.halted = true) (hc : s.faultCode ≠ .none) : s.KeepsFault t := by
  cases hr with
  | fault n c =>
    rw [State.raiseCommand_eq, State.raise_of_recorded hh hc]
    exact .refl hh
  | install | edit | ignore | mix | silence => exact ⟨hh, rfl, rfl, rfl, rfl⟩

/-- R106, R285: no command word, legal or not, changes a recorded fault. -/
theorem runCommand_keepsFault {s t : State} {w : Word64} (hh : s.halted = true)
    (hc : s.faultCode ≠ .none) (hr : runCommand s w = .next t) : s.KeepsFault t := by
  rcases runCommand_cases s w with ⟨i, -, he⟩ | ⟨-, -, he⟩
  · obtain ⟨u, hu, hres⟩ := exec_result i s
    cases hr.symm.trans (he.trans hu)
    exact hres.keepsFault hh hc
  · cases hr.symm.trans he
    rw [illegalCommand, State.raise_of_recorded hh hc]
    exact .refl hh

/-- R240, R285: the CORE's turn keeps a recorded fault. -/
theorem coreTurn_keepsFault {s t : State} (hh : s.halted = true) (hc : s.faultCode ≠ .none)
    (ht : coreTurn s = .next t) : s.KeepsFault t := by
  unfold coreTurn at ht
  split at ht
  · cases hp : s.pending with
    | none => simp [complete, hp] at ht
    | some w =>
      obtain ⟨u, hu, hd⟩ := complete_some s w hp
      cases ht.symm.trans hd
      exact { runCommand_keepsFault hh hc hu with }
  · cases ht
    exact .refl hh

/-! ### Host accesses of a halted core (R76, R287) -/

/-- R287: `t` is halted like `s`, with the parameters, the handshake, the operand registers, OUT
and the slots of `s`, and with its fault record where `s` has one. -/
structure State.Freezes (s t : State) : Prop where
  params : t.params = s.params
  halted : t.halted = true
  busy : t.busy = s.busy
  pending : t.pending = s.pending
  cmdLast : t.cmdLast = s.cmdLast
  cfgAmp : t.cfgAmp = s.cfgAmp
  cfgFm : t.cfgFm = s.cfgFm
  cfgBeta : t.cfgBeta = s.cfgBeta
  cfgAttack : t.cfgAttack = s.cfgAttack
  cfgDecay : t.cfgDecay = s.cfgDecay
  cfgSustain : t.cfgSustain = s.cfgSustain
  cfgRelease : t.cfgRelease = s.cfgRelease
  cfgFlags : t.cfgFlags = s.cfgFlags
  arg : t.arg = s.arg
  out : t.out = s.out
  slots : t.slots = s.slots
  fault : s.faultCode ≠ .none → s.KeepsFault t

theorem State.Freezes.refl {s : State} (hh : s.halted = true) : s.Freezes s :=
  ⟨rfl, hh, rfl, rfl, rfl, rfl, rfl, rfl, rfl, rfl, rfl, rfl, rfl, rfl, rfl, rfl, fun _ => .refl hh⟩

section
variable {s t : State} (h : s.Freezes t)
include h

theorem State.Freezes.setAgenda (es : List Event) : s.Freezes (t.setAgenda es) :=
  { h with fault := fun hc => { h.fault hc with } }

theorem State.Freezes.answer (v : Word64) : s.Freezes (t.answer v) :=
  { h with fault := fun hc => { h.fault hc with } }

theorem State.Freezes.answerAny : s.Freezes t.answerAny :=
  { h with fault := fun hc => { h.fault hc with } }

/-- R285: a fault after the first one leaves the record. -/
theorem State.Freezes.raise (c : FaultCode) (note : BitVec 8) (op : BitVec 4) (off : BitVec 16) :
    s.Freezes (t.raise c note op off) where
  __ := h
  halted := rfl
  fault hc := by
    have hkeeps := h.fault hc
    rwa [State.raise_of_recorded hkeeps.halted (hkeeps.faultCode ▸ hc)]

theorem State.Freezes.hostRead (off : BitVec 16) (width : Nat) :
    s.Freezes (hostRead t off width) := by
  rcases hostRead_cases t off width with ⟨-, hr⟩ | ⟨-, -, hr⟩ | ⟨r, -, -, hr⟩ <;> rw [hr]
  · exact (h.raise _ _ _ _).answerAny
  · exact h.answerAny
  · exact h.answer _

theorem State.Freezes.busRead (addr width : Nat) : s.Freezes (busRead t addr width) := by
  unfold Machine.busRead
  split
  · exact h.answerAny
  · exact h.hostRead _ _

/-- R76: a halted core ignores every write. -/
theorem State.Freezes.busWrite (addr width : Nat) (v : Word64) :
    s.Freezes (busWrite t addr width v) := by
  unfold Machine.busWrite
  split
  · exact h
  · rwa [hostWrite_of_halted _ _ _ _ h.halted]

theorem State.Freezes.waitPoll (rest : List Event) : s.Freezes (waitPoll t rest) := by
  unfold Machine.waitPoll
  split <;> exact (h.hostRead _ _).setAgenda _

end

/-- R20, R287: a step of a halted core is the CORE's turn, changes nothing R287 names, or is a
reset. -/
theorem step_of_halted {s : State} (hh : s.halted = true) :
    (∃ es, step s = coreTurn (s.setAgenda es)) ∨ (∃ t, step s = .next t ∧ s.Freezes t) ∨
      ∃ rest, s.agenda = .reset :: rest := by
  have hfrozen (es : List Event) := (State.Freezes.refl hh).setAgenda es
  rcases step_cases s with ⟨ha, hs⟩ | ⟨rest, -, hs⟩ | ⟨a, w, rest, -, hs⟩ |
    ⟨a, w, v, rest, -, hs⟩ | ⟨rest, -, hs⟩ | ⟨rest, ha, -⟩
  · exact .inl ⟨[], by rw [hs, ← ha]; rfl⟩
  · exact .inl ⟨rest, hs⟩
  · exact .inr (.inl ⟨_, hs, (hfrozen rest).busRead a w⟩)
  · exact .inr (.inl ⟨_, hs, (hfrozen rest).busWrite a w v⟩)
  · exact .inr (.inl ⟨_, hs, (State.Freezes.refl hh).waitPoll rest⟩)
  · exact .inr (.inr ⟨rest, ha⟩)

/-- Settles O34: the CORE's turn and the host's accesses keep a recorded fault, and a reset clears
it. -/
theorem onlyResetLeavesHalted : Obligations.OnlyResetLeavesHalted := by
  intro s t hh hc ht
  refine ⟨fun hreset => ?_, fun rest ha => ?_⟩
  · have hkeeps : s.KeepsFault t := by
      rcases step_of_halted hh with ⟨es, hs⟩ | ⟨u, hs, hu⟩ | ⟨rest, ha⟩
      · have hturn : (s.setAgenda es).KeepsFault t := coreTurn_keepsFault hh hc (hs.symm.trans ht)
        exact { hturn with }
      · cases hs.symm.trans ht
        exact hu.fault hc
      · exact absurd ha (hreset rest)
    exact ⟨hkeeps.halted, hkeeps.faultCode, hkeeps.faultNote, hkeeps.faultOp, hkeeps.faultOff⟩
  · cases (step_reset ha).symm.trans ht
    exact ⟨rfl, rfl, rfl, rfl, rfl⟩

/-- R315: with BUSY = 0 and HALTED = 1 every step but a reset changes nothing R287 names. -/
theorem exists_step_freezes {s : State} (hh : s.halted = true) (hb : s.busy = false)
    (hreset : ∀ rest, s.agenda ≠ .reset :: rest) : ∃ t, step s = .next t ∧ s.Freezes t := by
  rcases step_of_halted hh with ⟨es, hs⟩ | hfrozen | ⟨rest, ha⟩
  · have hidle : coreTurn (s.setAgenda es) = .next (s.setAgenda es) :=
      if_neg (Bool.eq_false_iff.mp hb)
    exact ⟨_, hs.trans hidle, (State.Freezes.refl hh).setAgenda es⟩
  · exact hfrozen
  · exact absurd ha (hreset rest)

/-- Settles O35: without a command in flight the CORE's turn changes nothing, and the host's
accesses write only their answer and a first fault. -/
theorem haltedIdleCoreIsFrozen : Obligations.HaltedIdleCoreIsFrozen := by
  intro s hh hb hreset
  obtain ⟨t, ht, h⟩ := exists_step_freezes hh hb hreset
  refine ⟨t, ht, h.params, h.halted, h.busy.trans hb, h.pending, h.cmdLast, h.cfgAmp, h.cfgFm,
    h.cfgBeta, h.cfgAttack, h.cfgDecay, h.cfgSustain, h.cfgRelease, h.cfgFlags, h.arg, h.out,
    h.slots, fun hc => ?_⟩
  have hkeeps := h.fault hc
  exact ⟨hkeeps.faultCode, hkeeps.faultNote, hkeeps.faultOp, hkeeps.faultOff⟩

/-! ### A refused write while a command is in flight (R286) -/

/-- R73: a write to a writable register while BUSY = 1 is a step that records BUSY_VIOLATION. -/
theorem step_write_of_busy {s : State} {off : BitVec 16} {v : Word64} {rest : List Event}
    (ha : s.agenda = .write (s.params.base + off.toNat) 8 v :: rest)
    (hoff : off.toNat ∈ writableOffsets) (hh : s.halted = false) (hb : s.busy = true) :
    step s = .next (refusedAccess { s with agenda := rest } .busyViolation off) := by
  obtain ⟨r, hr, hw, -⟩ := accessReg_writable s.params off hoff
  rw [step_write ha, ← hostWrite_of_busy { s with agenda := rest } off 8 v r hh hb hr hw,
    ← busWrite_inside]

/-- Settles O33: the write leaves the command pending, which then runs with the host's fault
recorded. -/
theorem hostFaultKeepsCommandInFlight : Obligations.HostFaultKeepsCommandInFlight := by
  intro s addr v w i rest ha hbase hoff hh hclean hb hp hd
  have hlow := (regOffsets_lookup_writable _ hoff).1
  have htoNat : (BitVec.ofNat 16 (addr - s.params.base)).toNat = addr - s.params.base :=
    Nat.mod_eq_of_lt (by omega)
  rw [← htoNat] at hoff
  have haddr : s.params.base + (BitVec.ofNat 16 (addr - s.params.base)).toNat = addr := by omega
  have hwrite := step_write_of_busy (haddr.symm ▸ ha) hoff hh hb
  rw [refusedAccess, if_pos hclean] at hwrite
  obtain ⟨t, ht, hres⟩ := exec_result i
    { firstFault s .busyViolation 0 0 (BitVec.ofNat 16 (addr - s.params.base)) with agenda := rest }
  have hkeeps := hres.keepsFault rfl (by simp [firstFault])
  refine ⟨_, t, hwrite, rfl, ht, ?_, hkeeps.halted, hkeeps.faultCode, hkeeps.faultNote,
    hkeeps.faultOp, hkeeps.faultOff⟩
  obtain ⟨-, -, hcommand, -⟩ := stepTakesFirstEvent
  exact hcommand _ rest w i t (.inl rfl) hb hp hd ht

end Sys2Proof.Machine
end

section
/-! SUPPORT. The first failing check of NOTE_ON is the fault it records (R284, R290). -/

namespace Sys2Proof.Machine

/-! ### The checks of NOTE_ON in order (R168, R190, R290) -/

theorem frames_eq_error {P : Params} {t : F64} (h : (timeProduct P t).isFinite = false) :
    frames P t = .error .configValue :=
  if_neg (Bool.eq_false_iff.mp h)

/-- R162, R163, R166, R168: the checks of a stored envelope that starts at frame 0. -/
theorem envCheck_eq_envFailure (P : Params) {pts : List Breakpoint} {final : Breakpoint}
    (hbs : 1 ≤ P.bs) (h0 : firstFrame pts = 0) (hfinal : pts.getLast? = some final) :
    envCheck P pts true = envFailure P (framesOrdered pts) final.frame := by
  simp [envCheck, envFailure, h0, envFits_eq_fitsBound, ← paddedLen_eq_bufLen P hbs hfinal]

theorem envCheck_adPoints (P : Params) (hbs : 1 ≤ P.bs) (a1 a2 : Int) (sustain : F64) :
    envCheck P (adPoints 0 a1 a2 sustain) true =
      envFailure P (decide (0 ≤ a1) && decide (a1 ≤ a2)) a2 := by
  rw [envCheck_eq_envFailure P hbs rfl rfl]
  simp [adPoints, framesOrdered]

theorem envCheck_relPoints (P : Params) (hbs : 1 ≤ P.bs) (r1 : Int) (sustain : F64) :
    envCheck P (relPoints 0 r1 sustain) true = envFailure P (decide (0 ≤ r1)) r1 := by
  rw [envCheck_eq_envFailure P hbs rfl rfl]
  simp [relPoints, framesOrdered]

/-- R250, R290: NOTE_ON's checks answer the first that fails. -/
theorem noteOnAdsr_eq_error {s : State} {n : Nat} (hP : s.params.Legal)
    (h : noteOnFirstFailure s n ≠ .none) :
    noteOnAdsr s n = .error (noteOnFirstFailure s n) := by
  obtain ⟨⟨-, hsr⟩, ⟨hbs, -⟩, -⟩ := hP
  by_cases hrange : s.params.nNotes ≤ n
  · simp [noteOnAdsr, noteOnFirstFailure, hrange]
  have hadsr : noteOnAdsr s n =
      adsrBuild s.params s.cfgAttack s.cfgDecay s.cfgSustain s.cfgRelease := if_neg hrange
  have hzero := frames_posZero s.params hsr
  rw [hadsr]
  unfold noteOnFirstFailure at h ⊢
  rw [if_neg hrange] at h ⊢
  by_cases hattack : (timeProduct s.params s.cfgAttack).isFinite = false
  · simp [adsrBuild, hzero, frames_eq_error hattack, hattack, bind, Except.bind]
  rw [if_neg hattack] at h ⊢
  have ha1 := frames_eq_ok (Bool.eq_true_of_not_eq_false hattack) rfl
  by_cases hdecay : (timeProduct s.params (add64 s.cfgAttack s.cfgDecay)).isFinite = false
  · simp [adsrBuild, hzero, ha1, frames_eq_error hdecay, hdecay, bind, Except.bind]
  rw [if_neg hdecay, ← envCheck_adPoints s.params hbs _ _ s.cfgSustain] at h ⊢
  have ha2 := frames_eq_ok (Bool.eq_true_of_not_eq_false hdecay) rfl
  rcases envBuild_cases s.params (adPoints 0 (frameOf s.params s.cfgAttack)
    (frameOf s.params (add64 s.cfgAttack s.cfgDecay)) s.cfgSustain) true with
    ⟨hcheck, had⟩ | ⟨hcheck, had⟩
  -- A failing check of the attack-decay envelope comes before any of the release.
  case inr => simp only [adsrBuild, hzero, ha1, ha2, had, bind, Except.bind]
  rw [hcheck] at h ⊢
  by_cases hrelease : (timeProduct s.params s.cfgRelease).isFinite = false
  · simp [adsrBuild, hzero, ha1, ha2, had, frames_eq_error hrelease, hrelease, bind, Except.bind]
  simp only [if_neg hrelease, ← envCheck_relPoints s.params hbs _ s.cfgSustain] at h ⊢
  have hr1 := frames_eq_ok (Bool.eq_true_of_not_eq_false hrelease) rfl
  rcases envBuild_cases s.params (relPoints 0 (frameOf s.params s.cfgRelease) s.cfgSustain) true
    with ⟨hcheck, -⟩ | ⟨-, hrel⟩
  · exact absurd hcheck h
  · simp [adsrBuild, hzero, ha1, ha2, had, hr1, hrel, bind, Except.bind]

/-- Settles O13: the first failing check is what NOTE_ON records, unless a fault is recorded. -/
theorem noteOnReportsFirstFailure : Obligations.NoteOnReportsFirstFailure := by
  intro s n hP hfail
  have hexec : exec (.noteOn n) s = .next (s.raiseCommand (noteOnFirstFailure s n) n 1) := by
    rw [exec, execNoteOn, noteOnAdsr_eq_error hP hfail]
  rw [hexec, State.raiseCommand_eq, State.raise_eq_firstFault]
  rfl

end Sys2Proof.Machine
end

section
/-! SUPPORT. NEXT puts no −0.0 into OUT (R257, R303). -/

namespace Sys2Proof.Machine

/-- R303: whatever the slots hold, NEXT's loop brings no −0.0 into the mix. -/
theorem mixLoop_no_negZero (P : Params) (ks : List Nat) (slots : List Slot) (acc : List F64)
    (hacc : ∀ x ∈ acc, x ≠ F64.negZero) : ∀ x ∈ (mixLoop P ks slots acc).2, x ≠ F64.negZero := by
  induction ks generalizing slots acc with
  | nil => exact hacc
  | cons k ks ih =>
    rw [mixLoop_cons]
    exact ih _ _ (mixIn_no_negZero _ hacc)

/-- Settles O17: the mix starts from +0.0 and no sum with it is −0.0. -/
theorem nextNeverOutputsNegativeZero : Obligations.NextNeverOutputsNegativeZero := fun s =>
  ⟨_, rfl, mixLoop_no_negZero _ _ _ _ (zeros_no_negZero s.params)⟩

end Sys2Proof.Machine
end

section
/-! SUPPORT. The special values of R14's arithmetic: NaNs, signed zeros, converted integers
(R301–R304). -/

namespace Sys2Proof.Machine

/-! ### NaNs (R301, R302) -/

theorem isNaN_iff (x : F64) : x.isNaN = true ↔ ∃ s p, x = .nan s p := by
  cases x <;> simp [F64.isNaN]

/-- An operation propagates NaNs when it does so from either side. -/
theorem isNaN_of_operand {op : F64 → F64 → F64} (hleft : ∀ s p b, (op (.nan s p) b).isNaN = true)
    (hright : ∀ a s p, (op a (.nan s p)).isNaN = true) {a b : F64}
    (h : a.isNaN = true ∨ b.isNaN = true) : (op a b).isNaN = true := by
  rw [isNaN_iff, isNaN_iff] at h
  rcases h with ⟨s, p, rfl⟩ | ⟨s, p, rfl⟩
  · exact hleft s p b
  · exact hright a s p

theorem addWith_isNaN (op : FOp) (opA opB : F64) {a b : F64}
    (h : a.isNaN = true ∨ b.isNaN = true) : (addWith op opA opB a b).isNaN = true :=
  isNaN_of_operand (op := addWith op opA opB) (fun _ _ _ => rfl)
    (fun a _ _ => by cases a <;> rfl) h

theorem neg_isNaN (x : F64) : x.neg.isNaN = x.isNaN := by
  cases x <;> rfl

theorem mul64_isNaN {a b : F64} (h : a.isNaN = true ∨ b.isNaN = true) :
    (mul64 a b).isNaN = true :=
  isNaN_of_operand (fun _ _ _ => rfl) (fun a _ _ => by cases a <;> rfl) h

theorem div64_isNaN {a b : F64} (h : a.isNaN = true ∨ b.isNaN = true) :
    (div64 a b).isNaN = true :=
  isNaN_of_operand (fun _ _ _ => rfl) (fun a _ _ => by cases a <;> rfl) h

/-- R301: infinities of opposite signs do not add up. -/
theorem addWith_opposite_inf_isNaN (op : FOp) (opA opB : F64) (s : Bool) :
    (addWith op opA opB (.inf s) (.inf (!s))).isNaN = true := by
  cases s <;> rfl

theorem div64_zero_zero_isNaN (s t : Bool) : (div64 (.zero s) (.zero t)).isNaN = true := by
  unfold div64
  simp only
  rw [if_pos magUnits_zero, if_pos magUnits_zero, someNaN_isNaN]

/-- Settles O54: the operations with a NaN operand, then each invalid one. -/
theorem naNPropagates : Obligations.NaNPropagates := by
  refine ⟨fun a b h => ?_, fun s t => ?_⟩
  · have hneg : a.isNaN = true ∨ b.neg.isNaN = true := by rwa [neg_isNaN]
    exact ⟨addWith_isNaN _ _ _ h, addWith_isNaN _ _ _ hneg, mul64_isNaN h, div64_isNaN h,
      eq64_nan a b h⟩
  · obtain ⟨hzero_inf, hinf_zero⟩ := mul64_zero_inf s t
    exact ⟨hzero_inf, hinf_zero, addWith_opposite_inf_isNaN _ _ _ s,
      addWith_opposite_inf_isNaN _ _ _ s, div64_zero_zero_isNaN s t, rfl⟩

/-! ### Signed zeros (R303) -/

/-- R303: the sum of two zeros is −0.0 only when both are. -/
theorem add64_zero_zero (s t : Bool) : add64 (.zero s) (.zero t) = .zero (s && t) := by
  have hsum : add64 (.zero s) (.zero t) =
      sumUnits (signedUnits s 0 0) (signedUnits t 0 0) (s && t) := rfl
  rw [hsum, sumUnits, signedUnits_zero, signedUnits_zero]
  exact if_pos rfl

theorem signedUnits_not (s : Bool) (e : Fin 2047) (f : BitVec 52) :
    signedUnits (!s) e f = -signedUnits s e f := by
  cases s <;> simp [signedUnits]

/-- R303: exact cancellation gives +0.0. -/
theorem add64_neg_self (s : Bool) (e : Fin 2047) (f : BitVec 52) :
    add64 (.fin s e f) (F64.fin s e f).neg = .posZero := by
  have hsum : add64 (.fin s e f) (F64.fin s e f).neg =
      sumUnits (signedUnits s e f) (signedUnits (!s) e f) (s && !s) := rfl
  rw [hsum, signedUnits_not, sumUnits, if_pos (add_neg_cancel _), Bool.and_not_self]

/-- R303: an exact zero product is the zero of the product's sign. -/
theorem mul64_of_magUnits_mul_eq_zero (sa sb : Bool) {ea eb : Fin 2047} {fa fb : BitVec 52}
    (h : magUnits ea fa * magUnits eb fb = 0) :
    mul64 (.fin sa ea fa) (.fin sb eb fb) = .zero (sa != sb) := by
  have hmul : mul64 (.fin sa ea fa) (.fin sb eb fb) =
      roundUnits (sa != sb) (magUnits ea fa * magUnits eb fb) unitsPerOne := rfl
  rw [hmul, h, roundUnits_zero]

/-- Settles O55: a zero is 0 units, and so are an exact cancellation and a product with it. -/
theorem signedZeroRules : Obligations.SignedZeroRules := by
  refine ⟨add64_zero_zero false true, add64_zero_zero true true, fun x hx _ _ => ?_,
    fun s x hx => ?_, ?_⟩
  · obtain ⟨t, e, f, rfl⟩ := (isFinite_iff x).mp hx
    exact add64_neg_self t e f
  · obtain ⟨t, e, f, rfl⟩ := (isFinite_iff x).mp hx
    exact ⟨mul64_of_magUnits_mul_eq_zero s t (by rw [magUnits_zero, Nat.zero_mul]),
      mul64_of_magUnits_mul_eq_zero t s (by rw [magUnits_zero, Nat.mul_zero])⟩
  · have heq : eq64 .posZero .negZero = (signedUnits false 0 0 == signedUnits true 0 0) := rfl
    rw [heq, signedUnits_zero, signedUnits_zero, beq_self_eq_true]

/-! ### Integers (R304) -/

theorem divRoundEven_mul_of_dvd {n d : Nat} (hd : 0 < d) (h : d ∣ n) :
    divRoundEven n d * d = n := by
  obtain ⟨q, rfl⟩ := h
  rw [mul_comm d q, divRoundEven_exact q d hd]

/-- R14: a whole number of units that its last significand place divides is rounded exactly, unless
it overflows. -/
theorem roundUnits_of_dvd (neg : Bool) {n : Nat} (hdvd : 2 ^ roundScale n 1 ∣ n)
    (hfinite : (roundUnits neg n 1).isFinite = true) :
    ∃ e f, roundUnits neg n 1 = .fin neg e f ∧ magUnits e f = n := by
  have hsig : roundSig n 1 * 2 ^ roundScale n 1 = n := by
    rw [roundSig, one_mul]
    exact divRoundEven_mul_of_dvd (by positivity) hdvd
  rcases roundUnits_parts neg n 1 one_pos with ⟨-, e, f, hfin, hmag, -⟩ | ⟨-, hinf⟩
  · exact ⟨e, f, hfin, hmag.trans hsig⟩
  · simp [hinf, F64.isFinite] at hfinite

theorem roundScale_le_of_lt {n m : Nat} (h : n < 2 ^ (m + 53)) : roundScale n 1 ≤ m := by
  by_contra hm
  have hlow : 2 ^ (roundScale n 1 + 52) * 1 ≤ n := roundScale_le n 1 one_pos (by omega)
  have hmono : 2 ^ (m + 53) ≤ 2 ^ (roundScale n 1 + 52) :=
    Nat.pow_le_pow_right two_pos (by omega)
  omega

/-- R304: the last significand place of an integer up to 2^53 divides it: it is at most that of the
units, or the integer is 2^53 itself. -/
theorem roundScale_dvd_of_le {n : Nat} (hn : n ≤ 2 ^ 53) :
    2 ^ roundScale (unitsPerOne * n) 1 ∣ unitsPerOne * n := by
  have hscale (m k : Nat) (h : n < 2 ^ k) (hm : 1074 + k ≤ m + 53) :
      roundScale (unitsPerOne * n) 1 ≤ m := by
    refine roundScale_le_of_lt ?_
    calc unitsPerOne * n < unitsPerOne * 2 ^ k := Nat.mul_lt_mul_of_pos_left h unitsPerOne_pos
      _ = 2 ^ (1074 + k) := by rw [unitsPerOne, pow_add]
      _ ≤ 2 ^ (m + 53) := Nat.pow_le_pow_right two_pos hm
  rcases hn.lt_or_eq with hlt | rfl
  · exact Dvd.dvd.mul_right (pow_dvd_pow 2 (hscale 1074 53 hlt le_rfl)) n
  · have hpow : unitsPerOne * 2 ^ 53 = 2 ^ (1074 + 53) := by rw [unitsPerOne, pow_add]
    have hle := hscale 1075 54 (Nat.pow_lt_pow_right one_lt_two (by omega)) (by omega)
    rw [hpow] at hle ⊢
    exact pow_dvd_pow 2 (hle.trans (by omega))

/-- Settles O56: an integer up to 2^53 needs no rounding, and its units are that many of 1. -/
theorem integerConversionExact : Obligations.IntegerConversionExact := by
  intro n hn
  have hfinite : (i2f n).isFinite = true := by
    obtain ⟨e, f, h⟩ := i2f_finite n (by omega)
    rw [h, F64.isFinite]
  obtain ⟨e, f, hfin, hmag⟩ := roundUnits_of_dvd false (roundScale_dvd_of_le hn) hfinite
  have hi2f : i2f n = .fin false e f := hfin
  refine ⟨⟨e, f, hi2f, hmag⟩, ?_⟩
  rw [hi2f, roundTiesEven_fin, hmag, mul_comm, divRoundEven_exact _ _ unitsPerOne_pos]
  rfl

end Sys2Proof.Machine
end

section
/-! SUPPORT. The platform's reset: STATUS and the slot file it leaves (R50, R320). -/

namespace Sys2Proof.Machine

/-- R50: after a reset no STATUS field is set. -/
theorem statusWord_platformReset (s : State) : s.platformReset.statusWord = 0 := by
  rw [← BitVec.toNat_inj, statusWord_toNat]
  rfl

/-- R50: after a reset no slot is mapped or holds a tail. -/
theorem unmapped_of_mem_platformReset {s : State} {sl : Slot} (h : sl ∈ s.platformReset.slots) :
    sl.mapped = false ∧ sl.tailValid = false := by
  rw [State.platformReset_slots] at h
  rw [eq_blank_of_mem_resetWith h]
  exact ⟨rfl, rfl⟩

/-- Settles O37: the step answers the platform's reset, which takes nothing of the state before it
but the parameters and the model's own fields. -/
theorem platformResetAnyTime : Obligations.PlatformResetAnyTime := by
  intro s rest ha
  refine ⟨_, step_reset ha, rfl, rfl, rfl, ?_⟩
  exact ⟨toBits_posZero, toBits_posZero, toBits_posZero, toBits_posZero, toBits_posZero,
    toBits_posZero, toBits_posZero, toBits_posZero, rfl, statusWord_platformReset _, rfl,
    List.length_replicate, fun _ => unmapped_of_mem_platformReset⟩

end Sys2Proof.Machine
end
